-- ==== Sys2Proof/Word.lean ====
section
/-! DEFINITION. The widths the specification gives its values (R9, R10, R11). Arithmetic of the rules is on
unbounded naturals (R12); these types only say how wide the stored result is. -/

namespace Sys2Proof

/-- One byte of the buffer BUF (R31). -/
abbrev Byte := BitVec 8

/-- One command word (R70). -/
abbrev CommandWord := BitVec 32

/-- One limb, one S register, one window register (R10, R23, R51). -/
abbrev Limb := BitVec 64

/-- One V register, four little-endian limbs (R10, R22). -/
abbrev BigInt := BitVec 256

end Sys2Proof
end

