-- ==== Sys2Proof/Config.lean ====
section
/-! DEFINITION. The implementation parameters of R7 and the values the specification leaves open.
Every constant with a body has the value R7 gives it; the two opaque constants have none, so no proof can
see what they are. -/

namespace Sys2Proof.Config

/-- `WN`: the narrow container, 192 bits (R7). -/
def widthNarrow : Nat := 192
/-- `WW`: the wide container, 256 bits (R7). -/
def widthWide : Nat := 256
/-- `B_N`: plaintext bytes per narrow block (R7). -/
def bytesNarrow : Nat := 6
/-- `B_W`: plaintext bytes per wide block (R7). -/
def bytesWide : Nat := 7
/-- `CW_N`: bytes of a narrow ciphertext block (R7, R169). -/
def blockNarrow : Nat := 24
/-- `CW_W`: bytes of a wide ciphertext block (R7, R169). -/
def blockWide : Nat := 29
/-- `KEXP_N`: the narrow K exponent, 140 in this specification (R7; conflict C1; log entry 6). -/
def kexpNarrow : Nat := 140
/-- `KEXP_W`: the wide K exponent (R7). -/
def kexpWide : Nat := 168
/-- `NSH_N`: the narrow noise shift (R7; conflict C2). -/
def nshNarrow : Nat := 57
/-- `NSH_W`: the wide noise shift (R7). -/
def nshWide : Nat := 25
/-- `NOFF`: the noise offset 2^127 (R7). -/
def noiseOffset : Nat := 2 ^ 127
/-- `MARK`: the wide marker 0b1111, which PACK places in bits 62:59 (R7). -/
def marker : Nat := 15
/-- `BUFSZ`: bytes of BUF (R7, R54). -/
def bufSize : Nat := 64
/-- Bytes of the PRF message (R144, R184). -/
def prfBytes : Nat := 16
/-- Bytes of the host window, 4 KiB (R50). -/
def windowBytes : Nat := 4096
/-- The constant of the ID register (R24). -/
def idValue : BitVec 64 := 0x4F50455500010308#64

/-- `WINDOW_BASE`: where the window lies in the host's address space. OPEN in the specification (R50, I5),
so it has no body here (log entry 7). -/
opaque windowBase : Nat

/-- FREE VALUE. What the n-th host read of operand state made while a command is pending returns: an
unconstrained 64-bit value (R39, I3; log entry 3). It has no body. -/
opaque busyRead : Nat → BitVec 64

end Sys2Proof.Config
end

