-- ==== Sys2Proof/Syntax.lean ====
section
/-! DEFINITION. The fifteen commands (R80), one constructor per row of the opcode table, with the operands
of the assembler syntax (R88). OFF, len and n are the numbers the assembler writes; WellFormed.lean says
which of them the fields can carry. -/

namespace Sys2Proof

/-- The profile a command's P bit selects (R2, R72). -/
inductive Profile where
  /-- P = 0: v0a, the 192-bit container. -/
  | narrow
  /-- P = 1: v0b, the 256-bit container. -/
  | wide
deriving DecidableEq, Repr

/-- The number of a V register (R22, R76). -/
abbrev VReg := Fin 8

/-- The number of an S register (R23, R76). -/
abbrev SReg := Fin 8

/-- The commands of the unit (R80, R81, R88). -/
inductive Instr where
  /-- `nop` (R160). -/
  | nop
  /-- `add vRD, vRA, vRB` (R100). -/
  | add (p : Profile) (rd ra rb : VReg)
  /-- `sub vRD, vRA, vRB` (R102). -/
  | sub (p : Profile) (rd ra rb : VReg)
  /-- `scale vRD, vRA, sRB` (R104). -/
  | scale (p : Profile) (rd ra : VReg) (rb : SReg)
  /-- `divs sRD, vRA, vRB` (R106). -/
  | divs (p : Profile) (rd : SReg) (ra rb : VReg)
  /-- `enc vRD, vRA, sRB, vRC` (R134). -/
  | enc (p : Profile) (rd ra : VReg) (rb : SReg) (rc : VReg)
  /-- `kform vRD, vRA` (R130). -/
  | kform (p : Profile) (rd ra : VReg)
  /-- `noise vRD, vRA` (R132). -/
  | noise (p : Profile) (rd ra : VReg)
  /-- `pack sRG, OFF, len` (R137). -/
  | pack (p : Profile) (rg : SReg) (off len : Nat)
  /-- `unpack sRG, sRS, OFF` (R141). -/
  | unpack (p : Profile) (rg rs : SReg) (off : Nat)
  /-- `prfmsg sRS, OFF`, and `prfmsg.i` when `inc` holds (R144). -/
  | prfmsg (rs : SReg) (off : Nat) (inc : Bool)
  /-- `ldle vRG, OFF, n` (R162). -/
  | ldle (rg : VReg) (off n : Nat)
  /-- `ldbe vRG, OFF, n` (R164). -/
  | ldbe (rg : VReg) (off n : Nat)
  /-- `stle vRG, OFF, n` (R166). -/
  | stle (rg : VReg) (off n : Nat)
  /-- `stbe vRG, OFF, n` (R168). -/
  | stbe (rg : VReg) (off n : Nat)
deriving DecidableEq, Repr

/-- The pseudo-instructions of the assembler (R89); `Pseudo.expand` in Machine/Asm.lean gives the command
each stands for. -/
inductive Pseudo where
  /-- `dec sD, vC, vK`. -/
  | dec (p : Profile) (d : SReg) (c k : VReg)
  /-- `ldct vD, OFF`. -/
  | ldct (p : Profile) (d : VReg) (off : Nat)
  /-- `stct vA, OFF`. -/
  | stct (p : Profile) (a : VReg) (off : Nat)
  /-- `ldh vD, OFF`. -/
  | ldh (d : VReg) (off : Nat)
  /-- `clr vD`. -/
  | clr (p : Profile) (d : VReg)
  /-- `dbl vD, vA`. -/
  | dbl (p : Profile) (d a : VReg)
deriving DecidableEq, Repr

end Sys2Proof
end

