-- ==== Sys2Proof/WellFormed.lean ====
section
/-! DEFINITION. Which operands the fields of a command word can carry: what the assembler refuses otherwise
(R88), which is the range of the 6-bit OFF and the 5-bit CNT field (R75, R77). Register numbers carry their
own range (R76). -/

namespace Sys2Proof

/-- OFF is a 6-bit field (R75, R88). -/
def offsetOk (off : Nat) : Bool := decide (off ≤ 63)

/-- PACK's len is the 5-bit CNT itself (R77, R88). -/
def lenOk (len : Nat) : Bool := decide (len ≤ 31)

/-- A move's byte count is CNT + 1, so 1..32 (R77, R88). -/
def countOk (n : Nat) : Bool := decide (1 ≤ n) && decide (n ≤ 32)

/-- The command can be written as a command word (R88). -/
def Instr.wellFormed : Instr → Bool
  | .nop => true
  | .add _ _ _ _ => true
  | .sub _ _ _ _ => true
  | .scale _ _ _ _ => true
  | .divs _ _ _ _ => true
  | .enc _ _ _ _ _ => true
  | .kform _ _ _ => true
  | .noise _ _ _ => true
  | .pack _ _ off len => offsetOk off && lenOk len
  | .unpack _ _ _ off => offsetOk off
  | .prfmsg _ off _ => offsetOk off
  | .ldle _ off n => offsetOk off && countOk n
  | .ldbe _ off n => offsetOk off && countOk n
  | .stle _ off n => offsetOk off && countOk n
  | .stbe _ off n => offsetOk off && countOk n

end Sys2Proof
end

