-- ==== Sys2Proof/Decode.lean ====
section
/-! DEFINITION. The decoder of R86, total on every 32-bit word and reading no state, and after it the encoder
written from the same formats (R73, R74, R75) and field uses (R81). -/

namespace Sys2Proof

/-- Why a word is no command (R86). -/
inductive DecodeError where
  /-- The OPC value is reserved: E_OPC (R82). -/
  | reservedOpcode
  /-- A bit that must be 0 is 1: E_FIELD (R83). -/
  | reservedField
deriving DecidableEq, Repr

/-- Field OPC, bits 31:26 (R71). -/
def fieldOPC (w : CommandWord) : BitVec 6 := w.extractLsb' 26 6

/-- A P bit as a profile (R72). -/
def profileOf (b : BitVec 1) : Profile := if b = 1#1 then .wide else .narrow

/-- Field P, bit 25 (R72). -/
def fieldP (w : CommandWord) : Profile := profileOf (w.extractLsb' 25 1)

/-- A 3-bit register field names the register of its value (R76). -/
def registerOf (b : BitVec 3) : Fin 8 := b.toFin

/-- Field RD, bits 24:22; format M calls it RG (R74, R75). -/
def fieldRD (w : CommandWord) : Fin 8 := registerOf (w.extractLsb' 22 3)
/-- Field RA, bits 21:19 (R74). -/
def fieldRA (w : CommandWord) : Fin 8 := registerOf (w.extractLsb' 19 3)
/-- Field RB, bits 18:16 (R74). -/
def fieldRB (w : CommandWord) : Fin 8 := registerOf (w.extractLsb' 16 3)
/-- Field RC, bits 15:13 (R74). -/
def fieldRC (w : CommandWord) : Fin 8 := registerOf (w.extractLsb' 13 3)
/-- Field OFF, bits 21:16, unsigned (R75). -/
def fieldOFF (w : CommandWord) : Nat := (w.extractLsb' 16 6).toNat
/-- Field CNT, bits 15:11, unsigned (R75). -/
def fieldCNT (w : CommandWord) : Nat := (w.extractLsb' 11 5).toNat
/-- Field RS, bits 10:8 (R75). -/
def fieldRS (w : CommandWord) : Fin 8 := registerOf (w.extractLsb' 8 3)
/-- Field I, bit 7 (R75, R78). -/
def fieldI (w : CommandWord) : Bool := decide (w.extractLsb' 7 1 = 1#1)

/-- One row of the field-use table (R81): the mask and match of a mnemonic, and its operands. -/
structure OpcodeRow where
  /-- The OPC value (R80). -/
  opc : BitVec 6
  /-- The bits that must have a fixed value (R81). -/
  mask : BitVec 32
  /-- Their values (R81). -/
  pattern : BitVec 32
  /-- The command, its operands read from the word's fields (R81, R86). -/
  build : CommandWord → Instr

/-- The table of R80 and R81, in its order. -/
def opcodeRows : List OpcodeRow :=
  [ ⟨0x00#6, 0xFFFFFFFF#32, 0x00000000#32, fun _ => .nop⟩,
    ⟨0x01#6, 0xFC00FFFF#32, 0x04000000#32, fun w => .add (fieldP w) (fieldRD w) (fieldRA w) (fieldRB w)⟩,
    ⟨0x02#6, 0xFC00FFFF#32, 0x08000000#32, fun w => .sub (fieldP w) (fieldRD w) (fieldRA w) (fieldRB w)⟩,
    ⟨0x03#6, 0xFC00FFFF#32, 0x0C000000#32, fun w => .scale (fieldP w) (fieldRD w) (fieldRA w) (fieldRB w)⟩,
    ⟨0x04#6, 0xFC00FFFF#32, 0x10000000#32, fun w => .divs (fieldP w) (fieldRD w) (fieldRA w) (fieldRB w)⟩,
    ⟨0x05#6, 0xFC001FFF#32, 0x14000000#32,
      fun w => .enc (fieldP w) (fieldRD w) (fieldRA w) (fieldRB w) (fieldRC w)⟩,
    ⟨0x08#6, 0xFC07FFFF#32, 0x20000000#32, fun w => .kform (fieldP w) (fieldRD w) (fieldRA w)⟩,
    ⟨0x09#6, 0xFC07FFFF#32, 0x24000000#32, fun w => .noise (fieldP w) (fieldRD w) (fieldRA w)⟩,
    ⟨0x0A#6, 0xFC0007FF#32, 0x28000000#32,
      fun w => .pack (fieldP w) (fieldRD w) (fieldOFF w) (fieldCNT w)⟩,
    ⟨0x0B#6, 0xFC00F8FF#32, 0x2C000000#32,
      fun w => .unpack (fieldP w) (fieldRD w) (fieldRS w) (fieldOFF w)⟩,
    ⟨0x0C#6, 0xFFC0F87F#32, 0x30000000#32, fun w => .prfmsg (fieldRS w) (fieldOFF w) (fieldI w)⟩,
    ⟨0x10#6, 0xFE0007FF#32, 0x40000000#32, fun w => .ldle (fieldRD w) (fieldOFF w) (fieldCNT w + 1)⟩,
    ⟨0x11#6, 0xFE0007FF#32, 0x44000000#32, fun w => .ldbe (fieldRD w) (fieldOFF w) (fieldCNT w + 1)⟩,
    ⟨0x12#6, 0xFE0007FF#32, 0x48000000#32, fun w => .stle (fieldRD w) (fieldOFF w) (fieldCNT w + 1)⟩,
    ⟨0x13#6, 0xFE0007FF#32, 0x4C000000#32, fun w => .stbe (fieldRD w) (fieldOFF w) (fieldCNT w + 1)⟩ ]

/-- The row of an OPC value; none where the value is reserved (R80, R82). -/
def rowOf (opc : BitVec 6) : Option OpcodeRow := opcodeRows.find? fun r => r.opc == opc

/-- The decode function of R86: first the opcode, then the mask, then the fields. -/
def decode (w : CommandWord) : Except DecodeError Instr :=
  match rowOf (fieldOPC w) with
  | none => .error .reservedOpcode
  | some r => if w &&& r.mask = r.pattern then .ok (r.build w) else .error .reservedField

/-- The instruction the decoder reads from a table word of `nbits` bits. A command is one 32-bit word (R70);
every bit above `nbits` is 0, and a number that needs more than 32 bits is no command word. -/
def decodeTableWord (nbits w : Nat) : Option Instr :=
  if w % 2 ^ nbits < 2 ^ 32 then (decode (BitVec.ofNat 32 (w % 2 ^ nbits))).toOption else none

/-- A profile as its P bit (R72). -/
def profileBit : Profile → BitVec 1
  | .narrow => 0#1
  | .wide => 1#1

/-- A register number as a 3-bit field (R76). -/
def registerField (r : Fin 8) : BitVec 3 := BitVec.ofNat 3 r.val

/-- A field at its place: bit 0 of the field at bit `lo` of the word, every other bit of the word 0. -/
def place {n : Nat} (field : BitVec n) (lo : Nat) : CommandWord := field.setWidth 32 <<< lo

/-- Format R, bits 31:26 OPC, 25 P, 24:22 RD, 21:19 RA, 18:16 RB, 15:13 RC, 12:0 zero (R74). -/
def formatR (opc : BitVec 6) (p : BitVec 1) (rd ra rb rc : BitVec 3) : CommandWord :=
  place opc 26 ||| place p 25 ||| place rd 22 ||| place ra 19 ||| place rb 16 ||| place rc 13

/-- Format M, bits 31:26 OPC, 25 P, 24:22 RG, 21:16 OFF, 15:11 CNT, 10:8 RS, 7 I, 6:0 zero (R75). -/
def formatM (opc : BitVec 6) (p : BitVec 1) (rg : BitVec 3) (off : BitVec 6) (cnt : BitVec 5)
    (rs : BitVec 3) (i : BitVec 1) : CommandWord :=
  place opc 26 ||| place p 25 ||| place rg 22 ||| place off 16 ||| place cnt 11 ||| place rs 8 ||| place i 7

/-- A move's word: P, RS and I are 0, CNT holds n - 1 (R77, R81). -/
def encodeMove (opc : BitVec 6) (rg : VReg) (off n : Nat) : CommandWord :=
  formatM opc 0#1 (registerField rg) (BitVec.ofNat 6 off) (BitVec.ofNat 5 (n - 1)) 0#3 0#1

/-- The word of a well-formed command (R73, R74, R75, R80, R81). -/
def encode : Instr → CommandWord
  | .nop => 0#32
  | .add p rd ra rb =>
      formatR 0x01#6 (profileBit p) (registerField rd) (registerField ra) (registerField rb) 0#3
  | .sub p rd ra rb =>
      formatR 0x02#6 (profileBit p) (registerField rd) (registerField ra) (registerField rb) 0#3
  | .scale p rd ra rb =>
      formatR 0x03#6 (profileBit p) (registerField rd) (registerField ra) (registerField rb) 0#3
  | .divs p rd ra rb =>
      formatR 0x04#6 (profileBit p) (registerField rd) (registerField ra) (registerField rb) 0#3
  | .enc p rd ra rb rc =>
      formatR 0x05#6 (profileBit p) (registerField rd) (registerField ra) (registerField rb) (registerField rc)
  | .kform p rd ra => formatR 0x08#6 (profileBit p) (registerField rd) (registerField ra) 0#3 0#3
  | .noise p rd ra => formatR 0x09#6 (profileBit p) (registerField rd) (registerField ra) 0#3 0#3
  | .pack p rg off len =>
      formatM 0x0A#6 (profileBit p) (registerField rg) (BitVec.ofNat 6 off) (BitVec.ofNat 5 len) 0#3 0#1
  | .unpack p rg rs off =>
      formatM 0x0B#6 (profileBit p) (registerField rg) (BitVec.ofNat 6 off) 0#5 (registerField rs) 0#1
  | .prfmsg rs off inc =>
      formatM 0x0C#6 0#1 0#3 (BitVec.ofNat 6 off) 0#5 (registerField rs) (BitVec.ofBool inc)
  | .ldle rg off n => encodeMove 0x10#6 rg off n
  | .ldbe rg off n => encodeMove 0x11#6 rg off n
  | .stle rg off n => encodeMove 0x12#6 rg off n
  | .stbe rg off n => encodeMove 0x13#6 rg off n

end Sys2Proof
end

