-- ==== Sys2Proof/Machine/State.lean ====
section
/-! DEFINITION. The state of the unit (R21), plain data, its value after reset (R44), and the reasons a step can
stop. The last three fields are the model's own: they hold the interface of R198 as data. -/

namespace Sys2Proof.Machine

/-- BUF as a sparse list of (address, byte), in one canonical form (`Memory.wf` in Machine/Ops.lean):
addresses strictly rising, none listed with the value 0 that an unlisted address reads as (R44). -/
abbrev Memory := List Host.Cell

/-- The size of a host access on the port `host_req` (R198). -/
inductive AccessSize where
  | bytes1
  | bytes2
  | bytes4
  | bytes8
deriving DecidableEq, Repr

/-- Read, or write of 64 bits of data (R198). -/
inductive AccessKind where
  | read
  | write (data : Limb)
deriving DecidableEq, Repr

/-- One request on the port `host_req` (R198): a 12-bit byte offset into the window, a size, read or write. -/
structure HostReq where
  offset : BitVec 12
  size : AccessSize
  kind : AccessKind
deriving DecidableEq, Repr

/-- What happens next: one atomic step of one agent (R20, R36). -/
inductive Turn where
  /-- The engine's turn (R41); no step where it is not enabled (R36; log entry 8). -/
  | engine
  /-- A host access that reaches the unit (R36, R40). -/
  | host (r : HostReq)
  /-- A host access by platform address, before the window at WINDOW_BASE is decoded (R50, R52, I8). -/
  | bus (addr : Nat) (size : AccessSize) (kind : AccessKind)
  /-- An event on the port `rst` (R198, R210). -/
  | rst
deriving DecidableEq, Repr

/-- The errors of R180. `ErrCode.code` in Machine/Ops.lean gives each its ECODE value. -/
inductive ErrCode where
  /-- E_OPC (R182). -/
  | opc
  /-- E_FIELD (R183). -/
  | field
  /-- E_PACK (R138). -/
  | pack
  /-- E_BUF (R184). -/
  | buf
  /-- E_DIVPRE (R107). -/
  | divPre
  /-- E_DIVRNG (R110). -/
  | divRng
  /-- E_OVERRUN (R187). -/
  | overrun
  /-- E_WBUSY (R187). -/
  | wbusy
  /-- E_BUS (R187). -/
  | bus
deriving DecidableEq, Repr

/-- The reasons a step ends the machine: none. Every admissible host access completes (R37), an errored
command still retires (R186), and the unit has no trap (R188); so nobody raises a fault, which is safe
(log entry 9). -/
inductive Fault where
deriving DecidableEq, Repr

/-- The reasons a step has no meaning in this model. -/
inductive Refusal where
  /-- Raised by an arm of `exec` for an instruction without a meaning; no arm raises it. Safe. -/
  | notModelled (mnemonic : String)
  /-- Raised by a `bus` turn whose address lies outside the 4 KiB window: the access does not reach the unit and
  what it does is the platform's (R52, I8; log entry 7). Safe: nothing is claimed about it. -/
  | outsideWindow
deriving DecidableEq, Repr

/-- The machine: the architectural state of R21, then the interface held as data. -/
structure State where
  /-- V0..V7 (R22). -/
  vreg : Vector BigInt 8
  /-- S0..S7 (R23). -/
  sreg : Vector Limb 8
  /-- CTR, the block counter (R30). -/
  ctr : Limb
  /-- BUF[0..63] (R31). -/
  buf : Memory
  /-- CTRL.IRQ_EN (R25). -/
  irqEn : Bool
  /-- STATUS.DONE (R26). -/
  done : Bool
  /-- STATUS.ERR (R26). -/
  err : Bool
  /-- STATUS.CHK (R26, R32). -/
  chk : Bool
  /-- STATUS.ECODE (R26, R180). -/
  ecode : BitVec 8
  /-- CMDCNT (R29). -/
  cmdcnt : Limb
  /-- PEND (R34). -/
  pend : Option CommandWord
  /-- The model's own: the turns still to come, in order (log entry 1). -/
  turns : List Turn
  /-- The model's own: what the last host access returned on `host_rsp`, none where it returned nothing
  (log entry 4). -/
  rsp : Option Limb
  /-- The model's own: how many busy-time reads have drawn a free value (R39; log entry 3). -/
  draws : Nat
deriving DecidableEq, Repr

/-- The state right after reset: every element of R44 at its value, no turn scheduled. -/
def State.reset : State where
  vreg := Vector.replicate 8 0#256
  sreg := Vector.replicate 8 0#64
  ctr := 0#64
  buf := []
  irqEn := false
  done := false
  err := false
  chk := false
  ecode := 0#8
  cmdcnt := 0#64
  pend := none
  turns := []
  rsp := none
  draws := 0

end Sys2Proof.Machine
end

