-- ==== Sys2Proof/Machine/Ops.lean ====
section
/-! DEFINITION. The named operations on registers and BUF, the recording of an error (what the unit has in place of
taking an exception, R186, R188), the return from one (R27, R189), and how a command retires (R41). -/

namespace Sys2Proof.Machine

/-- The ECODE value of an error (R180). -/
def ErrCode.code : ErrCode → BitVec 8
  | .opc => 0x01#8
  | .field => 0x02#8
  | .pack => 0x03#8
  | .buf => 0x04#8
  | .divPre => 0x05#8
  | .divRng => 0x06#8
  | .overrun => 0x10#8
  | .wbusy => 0x11#8
  | .bus => 0x12#8

/-- The error of a word that does not decode (R82, R83, R86). -/
def decodeErrCode : DecodeError → ErrCode
  | .reservedOpcode => .opc
  | .reservedField => .field

/-- `Σ_{i<n} f i`, the sum of R13 and R137. -/
def sumBelow (f : Nat → Nat) : Nat → Nat
  | 0 => 0
  | n + 1 => sumBelow f n + f n

/-! ### BUF -/

/-- The byte at an address: the listed one, else 0x00, the reset value of every byte (R44). -/
def Memory.read : Memory → Nat → Byte
  | [], _ => 0#8
  | (a', b) :: m, a => if a' = a then b else Memory.read m a

/-- Put a cell before the first cell with a higher address. -/
def Memory.insertCell (c : Host.Cell) : Memory → Memory
  | [] => [c]
  | d :: m => if c.1 < d.1 then c :: d :: m else d :: Memory.insertCell c m

/-- Write one byte, keeping the canonical form: the value 0 of an unlisted address is not listed. -/
def Memory.write (m : Memory) (a : Nat) (b : Byte) : Memory :=
  let rest := m.filter fun c => c.1 != a
  if b = 0#8 then rest else Memory.insertCell (a, b) rest

/-- The canonical form: addresses strictly rising and inside BUF (R54), no listed byte equal to what an
unlisted address reads as. -/
abbrev Memory.wf (m : Memory) : Prop :=
  m.Pairwise (fun c d => c.1 < d.1) ∧ ∀ c ∈ m, c.1 < Config.bufSize ∧ c.2 ≠ 0#8

/-- Write `n` bytes from address `a`, byte `i` being `f i`. -/
def Memory.writeBytes (m : Memory) (a : Nat) (f : Nat → Byte) : Nat → Memory
  | 0 => m
  | n + 1 => (Memory.writeBytes m a f n).write (a + n) (f n)

/-- `BufReadLE(a, n)` (R13). -/
def Memory.readLE (m : Memory) (a n : Nat) : Nat :=
  sumBelow (fun i => (m.read (a + i)).toNat * 2 ^ (8 * i)) n

/-- `BufReadBE(a, n)` (R13). -/
def Memory.readBE (m : Memory) (a n : Nat) : Nat :=
  sumBelow (fun i => (m.read (a + i)).toNat * 2 ^ (8 * (n - 1 - i))) n

/-- Byte `i` of the little-endian string of a value (R13). -/
def byteLE (v i : Nat) : Byte := BitVec.ofNat 8 (v >>> (8 * i))

/-- Byte `i` of the `n`-byte big-endian string of a value (R13). -/
def byteBE (n v i : Nat) : Byte := BitVec.ofNat 8 (v >>> (8 * (n - 1 - i)))

/-- `BufWriteLE(a, n, v)` (R13). -/
def Memory.writeLE (m : Memory) (a n v : Nat) : Memory := m.writeBytes a (byteLE v) n

/-- `BufWriteBE(a, n, v)` (R13). -/
def Memory.writeBE (m : Memory) (a n v : Nat) : Memory := m.writeBytes a (byteBE n v) n

/-- The bytes BUF[a .. a+n-1] in address order. -/
def Memory.bytes (m : Memory) (a n : Nat) : List Byte := (List.range n).map fun i => m.read (a + i)

/-- A range of BUF lies inside it (R13, R54, R184). -/
def inBuf (off count : Nat) : Bool := decide (off + count ≤ Config.bufSize)

/-! ### Registers -/

/-- `V[i]` (R11). -/
def State.getV (s : State) (i : VReg) : Nat := s.vreg[i].toNat

/-- `V[i] <- v`, modulo 2^256 (R11). -/
def State.setV (s : State) (i : VReg) (v : Nat) : State :=
  { s with vreg := s.vreg.set i (BitVec.ofNat 256 v) }

/-- `S[i]` (R11). -/
def State.getS (s : State) (i : SReg) : Nat := s.sreg[i].toNat

/-- `S[i] <- v`, modulo 2^64 (R11). -/
def State.setS (s : State) (i : SReg) (v : Nat) : State :=
  { s with sreg := s.sreg.set i (BitVec.ofNat 64 v) }

/-- `CTR <- v`, modulo 2^64 (R11). -/
def State.setCtr (s : State) (v : Nat) : State := { s with ctr := BitVec.ofNat 64 v }

/-- Replace the bytes of BUF. -/
def State.setBuf (s : State) (m : Memory) : State := { s with buf := m }

/-- `STATUS.CHK <- b` (R142). -/
def State.setChk (s : State) (b : Bool) : State := { s with chk := b }

/-- A command is pending: STATUS.BUSY (R26, R34). -/
def State.busy (s : State) : Bool := s.pend.isSome

/-! ### Errors, retirement, reset -/

/-- `record_error(code)`: the unit's error entry, for commands and host accesses alike (R181, R186). -/
def State.recordError (s : State) (e : ErrCode) : State :=
  { s with ecode := if s.err then s.ecode else e.code, err := true }

/-- A host write of `v` to STATUS: bit 1 clears DONE, bit 2 clears ERR and ECODE. It is the unit's return
from an error (R27, R189). -/
def State.writeStatus (s : State) (v : Limb) : State :=
  { s with
    done := s.done && !v.getLsbD 1
    err := s.err && !v.getLsbD 2
    ecode := if v.getLsbD 2 then 0#8 else s.ecode }

/-- The end of an engine step: PEND empty, DONE set, CMDCNT one up modulo 2^64 (R29, R41). -/
def State.retire (s : State) : State :=
  { s with pend := none, done := true, cmdcnt := s.cmdcnt + 1#64 }

/-- The state after a command that computes `r` in state `s`: its writes committed, or none of them and its error
recorded; then it retires (R14, R41, R186). -/
def State.complete (s : State) (r : Except ErrCode State) : State :=
  match r with
  | .ok s' => s'.retire
  | .error e => (s.recordError e).retire

/-- Check a BUF range before anything moves (R54, R184). -/
def withRange (off count : Nat) (s : State) : Except ErrCode State :=
  if inBuf off count then .ok s else .error .buf

/-- Hardware and soft reset: every element of R21 to its value in R44 (R210, R211). The turns still to come and
the count of free values drawn are no state of the unit and stay (log entry 10). -/
def State.resetUnit (s : State) : State :=
  { State.reset with turns := s.turns, draws := s.draws }

/-- The pending command with the engine's turn next: how a word is placed for the next step (log entry 2). -/
def State.placeCommand (s : State) (w : CommandWord) : State :=
  { s with
    pend := some w
    turns := match s.turns with
      | [] => []
      | t :: ts => .engine :: t :: ts }

end Sys2Proof.Machine
end

