-- ==== Sys2Proof/Machine/Operands.lean ====
section
/-! DEFINITION. Operand forms: the constants a profile selects (R8), the width a V operand is read and written
with (R45), and the limbs of a V register (R10). -/

namespace Sys2Proof

/-- `w(P)`, the container width in bits (R8). -/
def Profile.width : Profile → Nat
  | .narrow => Config.widthNarrow
  | .wide => Config.widthWide

/-- The number of limbs of the container, `w / 64` (R10, R101). -/
def Profile.limbs (p : Profile) : Nat := p.width / 64

/-- `B(P)`, plaintext bytes per block (R8). -/
def Profile.blockBytes : Profile → Nat
  | .narrow => Config.bytesNarrow
  | .wide => Config.bytesWide

/-- `CW(P)`, ciphertext bytes per block (R8, R19). -/
def Profile.cipherBytes : Profile → Nat
  | .narrow => Config.blockNarrow
  | .wide => Config.blockWide

/-- `KEXP(P)` (R8). -/
def Profile.kexp : Profile → Nat
  | .narrow => Config.kexpNarrow
  | .wide => Config.kexpWide

/-- `NSH(P)` (R8). -/
def Profile.nsh : Profile → Nat
  | .narrow => Config.nshNarrow
  | .wide => Config.nshWide

end Sys2Proof

namespace Sys2Proof.Machine

/-- Limb `x.lj` of a value (R10). -/
def limb (x j : Nat) : Nat := (x >>> (64 * j)) % 2 ^ 64

/-- The value with the four given limbs (R10). -/
def ofLimbs (l0 l1 l2 l3 : Nat) : Nat := l0 + l1 * 2 ^ 64 + l2 * 2 ^ 128 + l3 * 2 ^ 192

/-- The value with limb `j` replaced: a host write of one limb changes only that limb (R56). -/
def replaceLimb (x j v : Nat) : Nat :=
  ofLimbs (if j = 0 then v else limb x 0) (if j = 1 then v else limb x 1)
    (if j = 2 then v else limb x 2) (if j = 3 then v else limb x 3)

/-- `lo_w(P)(V[i])`, a V source operand under a profile (R11, R45). -/
def State.srcV (s : State) (p : Profile) (i : VReg) : Nat := s.getV i % 2 ^ p.width

/-- `V[i] <- zext_256(x mod 2^w(P))`, a V destination under a profile (R45). -/
def State.dstV (s : State) (p : Profile) (i : VReg) (x : Nat) : State := s.setV i (x % 2 ^ p.width)

end Sys2Proof.Machine
end

