-- ==== Sys2Proof/Machine/Flags.lean ====
section
/-! DEFINITION. The one result flag, CHK (R32, R142), the words the host reads STATUS and CTRL as (R25, R26), and
the interrupt output (R191). No arithmetic command sets a flag (R33). -/

namespace Sys2Proof.Machine

/-- The length tag of a plaintext limb, bits 2:0 (R141). -/
def lengthTag (m : Nat) : Nat := m % 2 ^ 3

/-- The marker field of a plaintext limb, bits 62:59 (R141, R142). -/
def markerField (m : Nat) : Nat := (m >>> 59) % 2 ^ 4

/-- The structural check of UNPACK (R142): the length tag is at most B(P) and, for P = 1, the marker is 0b1111. -/
def chkFlag (p : Profile) (m : Nat) : Bool :=
  decide (lengthTag m ≤ p.blockBytes) &&
    match p with
    | .narrow => true
    | .wide => decide (markerField m = Config.marker)

/-- The STATUS word: BUSY bit 0, DONE bit 1, ERR bit 2, CHK bit 3, ECODE bits 15:8, the rest 0 (R26). -/
def State.statusWord (s : State) : Limb :=
  BitVec.ofNat 64
    (s.busy.toNat + s.done.toNat * 2 + s.err.toNat * 4 + s.chk.toNat * 8 + s.ecode.toNat * 256)

/-- The CTRL word: IRQ_EN bit 0, the rest 0 (R25). -/
def State.ctrlWord (s : State) : Limb := BitVec.ofNat 64 s.irqEn.toNat

/-- The interrupt output, level (R191). -/
def State.irq (s : State) : Bool := s.irqEn && (s.done || s.err)

end Sys2Proof.Machine
end

