-- ==== Sys2Proof/Machine/Arith.lean ====
section
/-! DEFINITION. The big-integer commands ADD, SUB, SCALE and DIVS (40_bigint.md), on naturals with the width
applied where the rules write `mod` (R12). -/

namespace Sys2Proof.Machine

/-- ADD (R100). -/
def execAdd (p : Profile) (rd ra rb : VReg) (s : State) : Host.Outcome State Fault Refusal :=
  .next (s.complete (.ok (s.dstV p rd (s.srcV p ra + s.srcV p rb))))

/-- SUB (R102): the borrow is discarded. -/
def execSub (p : Profile) (rd ra rb : VReg) (s : State) : Host.Outcome State Fault Refusal :=
  .next (s.complete (.ok (s.dstV p rd (s.srcV p ra + 2 ^ p.width - s.srcV p rb))))

/-- SCALE (R104). -/
def execScale (p : Profile) (rd ra : VReg) (rb : SReg) (s : State) : Host.Outcome State Fault Refusal :=
  .next (s.complete (.ok (s.dstV p rd (s.srcV p ra * s.getS rb))))

/-! ### DIVS -/

/-- `check_pre` (R107), on the divisor alone. -/
def divisorOk (p : Profile) (q : Nat) : Bool :=
  limb q 2 != 0 && limb q 2 != 2 ^ 64 - 1 &&
    match p with
    | .narrow => true
    | .wide => limb q 3 == 0

/-- The running quotient `o` must stay below 2^64 (R108, R109, R110). -/
def quotientInRange (o : Nat) : Bool := decide (o < 2 ^ 64)

/-- `wide_prelim` (R108): drives the top limb of `x` to zero. The first argument bounds the number of
iterations; each lowers `x` by at least 2^128 (R111), so a bound of `x` is never reached (log entry 5). -/
def widePrelim (q : Nat) : Nat → Nat → Nat → Except ErrCode (Nat × Nat)
  | 0, x, o => .ok (x, o)
  | n + 1, x, o =>
    if limb x 3 > 0 then
      let ql := limb x 3 * ((2 ^ 64 - 1) / (limb q 2 + 1))
      if ql ≥ 2 ^ 64 then .error .divRng
      else if quotientInRange (o + ql) then widePrelim q n (x - q * ql) (o + ql)
      else .error .divRng
    else .ok (x, o)

/-- The correction after the main loop (R109). -/
def finalCorrection (q x o : Nat) : Except ErrCode Nat :=
  if limb x 2 = limb q 2 then
    if quotientInRange (o + 1) then .ok (o + 1) else .error .divRng
  else .ok o

/-- `main_loop` (R109). The first argument bounds the number of iterations, as for `widePrelim`. -/
def mainLoop (q : Nat) : Nat → Nat → Nat → Except ErrCode Nat
  | 0, x, o => finalCorrection q x o
  | n + 1, x, o =>
    if limb x 2 > limb q 2 then
      let ql := limb x 2 / (limb q 2 + 1)
      if quotientInRange (o + ql) then mainLoop q n (x - q * ql) (o + ql) else .error .divRng
    else finalCorrection q x o

/-- The loops of `div_small` on a divisor that passed `check_pre` (R106). -/
def divLoops (p : Profile) (x q : Nat) : Except ErrCode Nat :=
  match p with
  | .narrow => mainLoop q x x 0
  | .wide =>
    match widePrelim q x x 0 with
    | .ok (x', o) => mainLoop q x' x' o
    | .error e => .error e

/-- `div_small` (R106): the precondition first, then the loops. -/
def divSmall (p : Profile) (x q : Nat) : Except ErrCode Nat :=
  if divisorOk p q then divLoops p x q else .error .divPre

/-- The closed form of R112: the quotient `o*`. It is no part of DIVS's meaning here; R112 says the two agree. -/
def divClosed (x q : Nat) : Nat := x / q + if x % q ≥ limb q 2 * 2 ^ 128 then 1 else 0

/-- DIVS (R106). -/
def execDivs (p : Profile) (rd : SReg) (ra rb : VReg) (s : State) : Host.Outcome State Fault Refusal :=
  .next (s.complete ((divSmall p (s.srcV p ra) (s.srcV p rb)).map (s.setS rd)))

/-! ### The limb-level forms (R101, R103, R105) -/

/-- ADD limb by limb: the value of the first `n` limbs of the sum, and the carry out of them (R101). -/
def addLimbs (a b : Nat) : Nat → Nat × Nat
  | 0 => (0, 0)
  | n + 1 =>
    let (c, k) := addLimbs a b n
    let sum := limb a n + limb b n + k
    (c + sum % 2 ^ 64 * 2 ^ (64 * n), sum >>> 64)

/-- SUB limb by limb: the value of the first `n` limbs of the difference, and the borrow out of them (R103). -/
def subLimbs (a b : Nat) : Nat → Nat × Nat
  | 0 => (0, 0)
  | n + 1 =>
    let (c, k) := subLimbs a b n
    let d : Int := (limb a n : Int) - limb b n - k
    (c + (d % 2 ^ 64).toNat * 2 ^ (64 * n), if d < 0 then 1 else 0)

/-- SCALE limb by limb: the low half of each 128-bit product lands in limb `j`, the high half is added into limb
`j + 1`, and the high half of the last one is dropped (R105). -/
def scaleLimbs (x k n : Nat) : Nat :=
  (sumBelow (fun j => (limb x j * k % 2 ^ 64) * 2 ^ (64 * j)) n
    + sumBelow (fun j => ((limb x j * k) >>> 64) * 2 ^ (64 * (j + 1))) (n - 1)) % 2 ^ (64 * n)

end Sys2Proof.Machine
end

