-- ==== Sys2Proof/Machine/Datapath.lean ====
section
/-! DEFINITION. The OPE datapath commands KFORM, NOISE, ENC, PACK, UNPACK and PRFMSG (41_ope_datapath.md). -/

namespace Sys2Proof.Machine

/-- KFORM's shaping of K: limbs l0 and l1 kept, the top `t` bits of l2 with bit `t` set, l3 zero (R130). -/
def shapeKey (p : Profile) (a : Nat) : Nat :=
  let t := p.kexp - 128
  ofLimbs (limb a 0) (limb a 1) ((limb a 2 >>> (64 - t)) ||| 2 ^ t) 0

/-- KFORM (R130). -/
def execKform (p : Profile) (rd ra : VReg) (s : State) : Host.Outcome State Fault Refusal :=
  .next (s.complete (.ok (s.setV rd (shapeKey p (s.getV ra)))))

/-- NOISE's shaping of r: l2 shifted right by NSH(P), then NOFF added with full carry (R132). -/
def shapeNoise (p : Profile) (a : Nat) : Nat :=
  ofLimbs (limb a 0) (limb a 1) (limb a 2 >>> p.nsh) 0 + Config.noiseOffset

/-- NOISE (R132). -/
def execNoise (p : Profile) (rd ra : VReg) (s : State) : Host.Outcome State Fault Refusal :=
  .next (s.complete (.ok (s.setV rd (shapeNoise p (s.getV ra)))))

/-- ENC (R134): the scale and the add fused at one width. -/
def execEnc (p : Profile) (rd ra : VReg) (rb : SReg) (rc : VReg) (s : State) :
    Host.Outcome State Fault Refusal :=
  .next (s.complete (.ok (s.dstV p rd (s.srcV p ra * s.getS rb + s.srcV p rc))))

/-! ### PACK -/

/-- The plaintext field F: the bytes left-aligned in a `b`-byte big-endian field (R137). -/
def packField (b : Nat) (chunk : List Byte) : Nat :=
  sumBelow (fun i => (chunk.getD i 0#8).toNat * 2 ^ (8 * (b - 1 - i))) chunk.length

/-- The plaintext limb m of a chunk: the field, the length tag, and for P = 1 the marker (R137). -/
def packLimb (p : Profile) (chunk : List Byte) : Nat :=
  packField p.blockBytes chunk * 8 + chunk.length +
    match p with
    | .narrow => 0
    | .wide => Config.marker * 2 ^ 59

/-- The checks of PACK, E_PACK before E_BUF (R137, R138, R185), and the limb. -/
def packChecked (p : Profile) (m : Memory) (off len : Nat) : Except ErrCode Nat :=
  if len > p.blockBytes then .error .pack
  else if inBuf off len then .ok (packLimb p (m.bytes off len))
  else .error .buf

/-- PACK (R137). -/
def execPack (p : Profile) (rg : SReg) (off len : Nat) (s : State) : Host.Outcome State Fault Refusal :=
  .next (s.complete ((packChecked p s.buf off len).map (s.setS rg)))

/-! ### UNPACK -/

/-- The field F of a limb: bits 8·B+2 .. 3 (R141). -/
def fieldOf (p : Profile) (m : Nat) : Nat := (m >>> 3) % 2 ^ (8 * p.blockBytes)

/-- The writes of UNPACK: all B(P) field bytes big-endian, CHK, and the length tag (R141, R142). -/
def unpackWrites (p : Profile) (rg : SReg) (off m : Nat) (s : State) : State :=
  ((s.setBuf (s.buf.writeBE off p.blockBytes (fieldOf p m))).setChk (chkFlag p m)).setS rg (lengthTag m)

/-- UNPACK (R141). -/
def execUnpack (p : Profile) (rg rs : SReg) (off : Nat) (s : State) : Host.Outcome State Fault Refusal :=
  .next (s.complete ((withRange off p.blockBytes s).map (unpackWrites p rg off (s.getS rs))))

/-! ### PRFMSG -/

/-- The writes of PRFMSG: m and CTR as 16 big-endian bytes, then the post-increment where I = 1 (R144, R145). -/
def prfWrites (off m : Nat) (inc : Bool) (s : State) : State :=
  let s' := s.setBuf ((s.buf.writeBE off 8 m).writeBE (off + 8) 8 s.ctr.toNat)
  if inc then s'.setCtr (s.ctr.toNat + 1) else s'

/-- PRFMSG (R144). -/
def execPrfmsg (rs : SReg) (off : Nat) (inc : Bool) (s : State) : Host.Outcome State Fault Refusal :=
  .next (s.complete ((withRange off Config.prfBytes s).map (prfWrites off (s.getS rs) inc)))

end Sys2Proof.Machine
end

