-- ==== Sys2Proof/Machine/Moves.lean ====
section
/-! DEFINITION. NOP and the four moves between BUF and a V register (42_buffer_moves.md). -/

namespace Sys2Proof.Machine

/-- NOP: only the retirement (R160, R161). -/
def execNop (s : State) : Host.Outcome State Fault Refusal := .next (s.complete (.ok s))

/-- LDLE (R162): the bytes at index n and above become 0. -/
def execLdle (rg : VReg) (off n : Nat) (s : State) : Host.Outcome State Fault Refusal :=
  .next (s.complete ((withRange off n s).map fun s => s.setV rg (s.buf.readLE off n)))

/-- LDBE (R164): BUF[OFF] is the most significant byte. -/
def execLdbe (rg : VReg) (off n : Nat) (s : State) : Host.Outcome State Fault Refusal :=
  .next (s.complete ((withRange off n s).map fun s => s.setV rg (s.buf.readBE off n)))

/-- STLE (R166): exactly n bytes, the rest of the value dropped (R167). -/
def execStle (rg : VReg) (off n : Nat) (s : State) : Host.Outcome State Fault Refusal :=
  .next (s.complete ((withRange off n s).map fun s =>
    s.setBuf (s.buf.writeLE off n (s.getV rg % 2 ^ (8 * n)))))

/-- STBE (R168): exactly n bytes, the rest of the value dropped (R167). -/
def execStbe (rg : VReg) (off n : Nat) (s : State) : Host.Outcome State Fault Refusal :=
  .next (s.complete ((withRange off n s).map fun s =>
    s.setBuf (s.buf.writeBE off n (s.getV rg % 2 ^ (8 * n)))))

end Sys2Proof.Machine
end

