-- ==== Sys2Proof/Machine/Dispatch.lean ====
section
/-! DEFINITION. One arm per command, each one call of the command's meaning (R80). -/

namespace Sys2Proof.Machine

-- The engine's execution of a decoded command, from issue to retirement (R37, R41).
def exec (i : Instr) (s : State) : Host.Outcome State Fault Refusal :=
  match i with
  | .nop => Sys2Proof.Machine.execNop s
  | .add p rd ra rb => Sys2Proof.Machine.execAdd p rd ra rb s
  | .sub p rd ra rb => Sys2Proof.Machine.execSub p rd ra rb s
  | .scale p rd ra rb => Sys2Proof.Machine.execScale p rd ra rb s
  | .divs p rd ra rb => Sys2Proof.Machine.execDivs p rd ra rb s
  | .enc p rd ra rb rc => Sys2Proof.Machine.execEnc p rd ra rb rc s
  | .kform p rd ra => Sys2Proof.Machine.execKform p rd ra s
  | .noise p rd ra => Sys2Proof.Machine.execNoise p rd ra s
  | .pack p rg off len => Sys2Proof.Machine.execPack p rg off len s
  | .unpack p rg rs off => Sys2Proof.Machine.execUnpack p rg rs off s
  | .prfmsg rs off inc => Sys2Proof.Machine.execPrfmsg rs off inc s
  | .ldle rg off n => Sys2Proof.Machine.execLdle rg off n s
  | .ldbe rg off n => Sys2Proof.Machine.execLdbe rg off n s
  | .stle rg off n => Sys2Proof.Machine.execStle rg off n s
  | .stbe rg off n => Sys2Proof.Machine.execStbe rg off n s

end Sys2Proof.Machine
end

