-- ==== Sys2Proof/Machine/Window.lean ====
section
/-! DEFINITION. The host window (20_memory.md): its map, and what a host access reads, writes and records
(R24 to R31, R38, R39, R40, R51, R52, R53, R59, R187). -/

namespace Sys2Proof.Machine

/-- What an admissible offset of the window names (R51). -/
inductive WindowReg where
  | id
  | ctrl
  | status
  | cmd
  | cmdcnt
  | ctr
  | sreg (i : Fin 8)
  | vlimb (i : Fin 8) (j : Fin 4)
  | bufWord (k : Fin 8)
  | reserved
deriving DecidableEq, Repr

/-- A number modulo 8, as a register or word number. -/
def index8 (n : Nat) : Fin 8 := Fin.ofNat 8 n

/-- A number modulo 4, as a limb number. -/
def index4 (n : Nat) : Fin 4 := Fin.ofNat 4 n

/-- The window map by the number of the 64-bit word, the offset over 8 (R51, R59). -/
def windowReg (k : Nat) : WindowReg :=
  if k = 0 then .id
  else if k = 1 then .ctrl
  else if k = 2 then .status
  else if k = 3 then .cmd
  else if k = 4 then .cmdcnt
  else if k = 5 then .ctr
  else if 0x10 ≤ k ∧ k < 0x18 then .sreg (index8 (k - 0x10))
  else if 0x20 ≤ k ∧ k < 0x40 then .vlimb (index8 ((k - 0x20) / 4)) (index4 (k - 0x20))
  else if 0x40 ≤ k ∧ k < 0x48 then .bufWord (index8 (k - 0x40))
  else .reserved

/-- The access is 8 bytes at a multiple of 8 (R52). -/
def HostReq.admissible (r : HostReq) : Bool :=
  decide (r.size = .bytes8) && decide (r.offset.toNat % 8 = 0)

/-- Operand state: CTR, S, V and BUF, which the busy protocol guards (R38, R39). -/
def WindowReg.isOperand : WindowReg → Bool
  | .ctr => true
  | .sreg _ => true
  | .vlimb _ _ => true
  | .bufWord _ => true
  | _ => false

/-- The current value of a window register (R24 to R31, R53, R59); CMD reads 0 (R28). -/
def State.windowValue (s : State) : WindowReg → Limb
  | .id => Config.idValue
  | .ctrl => s.ctrlWord
  | .status => s.statusWord
  | .cmd => 0#64
  | .cmdcnt => s.cmdcnt
  | .ctr => s.ctr
  | .sreg i => s.sreg[i]
  | .vlimb i j => BitVec.ofNat 64 (limb (s.getV i) j.val)
  | .bufWord k => BitVec.ofNat 64 (s.buf.readLE (8 * k.val) 8)
  | .reserved => 0#64

/-- The access returned `v` on `host_rsp`, or nothing (R198; log entry 4). -/
def State.respond (s : State) (v : Option Limb) : State := { s with rsp := v }

/-- A host read of a window register: operand state while busy gives a free value (R39), all else the current
value. It changes nothing of the unit (R58). -/
def State.hostRead (s : State) (w : WindowReg) : State :=
  if w.isOperand && s.busy then
    { s with rsp := some (Config.busyRead s.draws), draws := s.draws + 1 }
  else s.respond (some (s.windowValue w))

/-- A host write to operand state while no command is pending (R22, R23, R30, R53, R56). -/
def State.writeOperand (s : State) (w : WindowReg) (v : Limb) : State :=
  match w with
  | .ctr => s.setCtr v.toNat
  | .sreg i => s.setS i v.toNat
  | .vlimb i j => s.setV i (replaceLimb (s.getV i) j.val v.toNat)
  | .bufWord k => s.setBuf (s.buf.writeLE (8 * k.val) 8 v.toNat)
  | _ => s

/-- A host write to CTRL: bit 1 resets the unit and bit 0 is then not applied; else bit 0 is IRQ_EN (R25, R211). -/
def State.writeCtrl (s : State) (v : Limb) : State :=
  if v.getLsbD 1 then s.resetUnit else { s with irqEn := v.getLsbD 0 }

/-- A host write to CMD: it issues the low 32 bits, or raises E_OVERRUN while a command is pending (R28, R187). -/
def State.writeCmd (s : State) (v : Limb) : State :=
  if s.busy then s.recordError .overrun else { s with pend := some (v.setWidth 32) }

/-- A host write of `v` to a window register (R24 to R31, R38, R59). -/
def State.hostWrite (s : State) (w : WindowReg) (v : Limb) : State :=
  match w with
  | .ctrl => s.writeCtrl v
  | .status => s.writeStatus v
  | .cmd => s.writeCmd v
  | .id => s
  | .cmdcnt => s
  | .reserved => s
  | w => if s.busy then s.recordError .wbusy else s.writeOperand w v

/-- The host-access step, in the order of R40: admissibility first, then the register. -/
def hostAccess (r : HostReq) (s : State) : State :=
  match r.kind with
  | .read =>
    if r.admissible then s.hostRead (windowReg (r.offset.toNat / 8))
    else (s.recordError .bus).respond (some 0#64)
  | .write v =>
    if r.admissible then (s.hostWrite (windowReg (r.offset.toNat / 8)) v).respond none
    else (s.recordError .bus).respond none

/-- The offset a host physical address has in the window, if it lies in it (R50, R52). -/
def windowOffset (base addr : Nat) : Option (BitVec 12) :=
  if base ≤ addr ∧ addr < base + Config.windowBytes then some (BitVec.ofNat 12 (addr - base)) else none

/-- An access by platform address: inside the window it reaches the unit, outside it does not (R52, I8). -/
def busAccess (addr : Nat) (size : AccessSize) (kind : AccessKind) (s : State) :
    Host.Outcome State Fault Refusal :=
  match windowOffset Config.windowBase addr with
  | some off => .next (hostAccess ⟨off, size, kind⟩ s)
  | none => .refused .outsideWindow

end Sys2Proof.Machine
end

