-- ==== Sys2Proof/Machine/Engine.lean ====
section
/-! DEFINITION. The engine step (R41) and one turn of either agent (R36). -/

namespace Sys2Proof.Machine

/-- The engine's execution of a pending word: decode (R86), then the command; a word that does not decode has no
effect but its error (R182, R183) and retires. -/
def executeWord (w : CommandWord) (s : State) : Host.Outcome State Fault Refusal :=
  match decode w with
  | .ok i => exec i s
  | .error e => .next (s.complete (.error (decodeErrCode e)))

/-- The engine step, enabled while a command is pending (R36, R41). Where none is, the engine takes no step and the
unit changes no state (R196; log entry 8). -/
def engineStep (s : State) : Host.Outcome State Fault Refusal :=
  match s.pend with
  | some w => executeWord w s
  | none => .next s

/-- One turn (R20, R36, R210). -/
def takeTurn (t : Turn) (s : State) : Host.Outcome State Fault Refusal :=
  match t with
  | .engine => engineStep s
  | .host r => .next (hostAccess r s)
  | .bus addr size kind => busAccess addr size kind s
  | .rst => .next s.resetUnit

/-- The next step of the machine: the next scheduled turn; with none left, the engine's (R36, R223; log entry 1). -/
def nextStep (s : State) : Host.Outcome State Fault Refusal :=
  match s.turns with
  | [] => engineStep s
  | t :: ts => takeTurn t { s with turns := ts }

end Sys2Proof.Machine
end

