-- ==== Sys2Proof/Machine/Step.lean ====
section
/-! DEFINITION. The step of the machine, and how a command word is placed for the next step. -/

namespace Sys2Proof.Machine

/-- One atomic step of one agent (R36, R37): `nextStep` of Machine/Engine.lean. -/
def step (s : State) : Host.Outcome State Fault Refusal := nextStep s

/-- The state in which a table word of `nbits` bits is the pending command and the engine has the next turn. It
stands for the host's CMD write taking effect (R28, R35; log entry 2). -/
def State.withFetchWord (s : State) (nbits w : Nat) : State :=
  s.placeCommand (BitVec.ofNat 32 (w % 2 ^ nbits))

end Sys2Proof.Machine
end

