-- ==== Sys2Proof/Machine/Asm.lean ====
section
/-! DEFINITION. The assembler's side of a command: its text (R16, R88), what the assembler refuses (R88), and the
pseudo-instructions' expansions (R89). No step of the machine reads any of it. -/

namespace Sys2Proof

/-- The mandatory suffix of a command that takes P: `.n` or `.w` (R16, R88). -/
def Profile.suffix : Profile → String
  | .narrow => ".n"
  | .wide => ".w"

/-- `vN` (R16). -/
def vName (i : VReg) : String := "v" ++ toString i.val

/-- `sN` (R16). -/
def sName (i : SReg) : String := "s" ++ toString i.val

/-- Operands separated by a comma and a space (R88; log entry 13). -/
def joinOperands (xs : List String) : String := ", ".intercalate xs

/-- A command as the assembler writes it, numbers decimal (R16, R88). -/
def Instr.asm : Instr → String
  | .nop => "nop"
  | .add p rd ra rb => "add" ++ p.suffix ++ " " ++ joinOperands [vName rd, vName ra, vName rb]
  | .sub p rd ra rb => "sub" ++ p.suffix ++ " " ++ joinOperands [vName rd, vName ra, vName rb]
  | .scale p rd ra rb => "scale" ++ p.suffix ++ " " ++ joinOperands [vName rd, vName ra, sName rb]
  | .divs p rd ra rb => "divs" ++ p.suffix ++ " " ++ joinOperands [sName rd, vName ra, vName rb]
  | .enc p rd ra rb rc =>
      "enc" ++ p.suffix ++ " " ++ joinOperands [vName rd, vName ra, sName rb, vName rc]
  | .kform p rd ra => "kform" ++ p.suffix ++ " " ++ joinOperands [vName rd, vName ra]
  | .noise p rd ra => "noise" ++ p.suffix ++ " " ++ joinOperands [vName rd, vName ra]
  | .pack p rg off len => "pack" ++ p.suffix ++ " " ++ joinOperands [sName rg, toString off, toString len]
  | .unpack p rg rs off => "unpack" ++ p.suffix ++ " " ++ joinOperands [sName rg, sName rs, toString off]
  | .prfmsg rs off inc =>
      "prfmsg" ++ (if inc then ".i " else " ") ++ joinOperands [sName rs, toString off]
  | .ldle rg off n => "ldle " ++ joinOperands [vName rg, toString off, toString n]
  | .ldbe rg off n => "ldbe " ++ joinOperands [vName rg, toString off, toString n]
  | .stle rg off n => "stle " ++ joinOperands [vName rg, toString off, toString n]
  | .stbe rg off n => "stbe " ++ joinOperands [vName rg, toString off, toString n]

/-- The word the assembler makes, or none where it refuses a value outside its field (R88). -/
def Instr.assemble (i : Instr) : Option CommandWord := if i.wellFormed then some (encode i) else none

/-- The command a pseudo-instruction stands for (R89). -/
def Pseudo.expand : Pseudo → Instr
  | .dec p d c k => .divs p d c k
  | .ldct p d off => .ldbe d off p.cipherBytes
  | .stct p a off => .stbe a off p.cipherBytes
  | .ldh d off => .ldle d off 24
  | .clr p d => .sub p d d d
  | .dbl p d a => .add p d a a

end Sys2Proof
end

