-- ==== Sys2Proof/Machine/HostProgram.lean ====
section
/-! DEFINITION. The host's notation as lists of turns (R17), and the command sequences the specification recommends to
the host (R146, R147, R148, R214). The host computes the hash, the KDF and the MAC outside the unit (R6). -/

namespace Sys2Proof.Machine

/-- `W off, v`: a 64-bit host write (R17). -/
def hostW (off : Nat) (v : Limb) : Turn := .host ⟨BitVec.ofNat 12 off, .bytes8, .write v⟩

/-- `R off`: a 64-bit host read (R17). -/
def hostR (off : Nat) : Turn := .host ⟨BitVec.ofNat 12 off, .bytes8, .read⟩

/-- `WAIT` in a run where `k` reads of STATUS find BUSY = 1 before the engine retires the command (R17, R61). -/
def hostWait (k : Nat) : List Turn := List.replicate k (hostR 0x010) ++ [.engine, hostR 0x010]

/-- `C <command>`: the CMD write and the WAIT (R17). -/
def hostC (k : Nat) (i : Instr) : List Turn :=
  hostW 0x018 ((encode i).setWidth 64) :: hostWait k

/-- Key derivation in the unit: 24 KDF bytes at `off` become K in V[k] (R148). -/
def keySequence (p : Profile) (k : VReg) (off : Nat) : List Instr := [.ldle k off 24, .kform p k k]

/-- encrypt_block before the host's hash (R146): the narrow profile has no PRFMSG form. -/
def encryptBeforeHash (p : Profile) (m : SReg) (offP len offH : Nat) : List Instr :=
  match p with
  | .narrow => [.pack .narrow m offP len]
  | .wide => [.pack .wide m offP len, .prfmsg m offH true]

/-- encrypt_block after the host wrote 24 hash bytes at `offH` (R146). -/
def encryptAfterHash (p : Profile) (k t r c : VReg) (m : SReg) (offH offC : Nat) : List Instr :=
  [.ldle t offH 24, .noise p r t, .enc p c k m r, .stbe c offC p.cipherBytes]

/-- decrypt_block (R147). -/
def decryptSequence (p : Profile) (c k : VReg) (m len : SReg) (offC offP : Nat) : List Instr :=
  [.ldbe c offC p.cipherBytes, .divs p m c k, .unpack p len m offP]

/-- The start of the boot sequence: a soft reset, then IRQ_EN where the host wants interrupts (R214). -/
def bootTurns (irq : Bool) : List Turn :=
  hostW 0x008 0x2#64 :: if irq then [hostW 0x008 0x1#64] else []

end Sys2Proof.Machine
end

