-- ==== Sys2Proof/Safety.lean ====
section
/-! DEFINITION. The terms the statements use: the invariant, the host's busy protocol, the ranges of the scheme, and
what an errored command leaves. -/

namespace Sys2Proof

/-- The command writes a V register (R22). -/
def Instr.writesV : Instr → Bool
  | .add _ _ _ _ => true
  | .sub _ _ _ _ => true
  | .scale _ _ _ _ => true
  | .enc _ _ _ _ _ => true
  | .kform _ _ _ => true
  | .noise _ _ _ => true
  | .ldle _ _ _ => true
  | .ldbe _ _ _ => true
  | _ => false

/-- The command writes an S register (R23). -/
def Instr.writesS : Instr → Bool
  | .divs _ _ _ _ => true
  | .pack _ _ _ _ => true
  | .unpack _ _ _ _ => true
  | _ => false

/-- The command writes BUF (R31). -/
def Instr.writesBuf : Instr → Bool
  | .stle _ _ _ => true
  | .stbe _ _ _ => true
  | .unpack _ _ _ _ => true
  | .prfmsg _ _ _ => true
  | _ => false

end Sys2Proof

namespace Sys2Proof.Machine

/-- No command is pending (R42). -/
abbrev State.quiescent (s : State) : Prop := s.pend = none

/-- The codes ECODE may hold while ERR = 1 (R180). -/
def errorCodes : List (BitVec 8) :=
  [0x01#8, 0x02#8, 0x03#8, 0x04#8, 0x05#8, 0x06#8, 0x10#8, 0x11#8, 0x12#8]

/-- The invariant: BUF is in canonical form; ECODE is 0 while ERR = 0 and a code of R180 while ERR = 1 (R26, R180,
R181). -/
abbrev State.Inv (s : State) : Prop :=
  s.buf.wf ∧ (s.err = false → s.ecode = 0#8) ∧ (s.err = true → s.ecode ∈ errorCodes)

/-- The engine has the next turn, with `rest` left after it (R36; log entry 1). -/
abbrev State.engineNext (s : State) (rest : List Turn) : Prop :=
  (s.turns = [] ∧ rest = []) ∨ s.turns = .engine :: rest

/-- What an engine step leaves when the command ends with error `code`: nothing of V, S, CTR, BUF or CHK changed, the
error recorded unless one already stands, the command retired (R14, R41, R186). -/
def State.afterError (s : State) (code : BitVec 8) : State :=
  { s with
    err := true
    ecode := if s.err = true then s.ecode else code
    pend := none
    done := true
    cmdcnt := s.cmdcnt + 1#64 }

/-- What a host access leaves when it raises error `code`: only ERR and ECODE of the unit change (R186). -/
def State.afterAccessError (s : State) (code : BitVec 8) : State :=
  { s with err := true, ecode := if s.err = true then s.ecode else code }

/-- The request obeys the busy protocol (R215, duty H1 of R197): no CMD write, no operand access while busy. -/
def HostReq.respectsBusy (r : HostReq) (s : State) : Bool :=
  let w := windowReg (r.offset.toNat / 8)
  !s.busy ||
    match r.kind with
    | .read => !w.isOperand
    | .write _ => !w.isOperand && decide (w ≠ .cmd)

/-- The request clears ERR or resets the unit: a STATUS write with bit 2, or a CTRL write with bit 1 (R27, R211). -/
def HostReq.clearsError (r : HostReq) : Bool :=
  match r.kind with
  | .read => false
  | .write v =>
    r.admissible &&
      ((decide (windowReg (r.offset.toNat / 8) = .status) && v.getLsbD 2) ||
        (decide (windowReg (r.offset.toNat / 8) = .ctrl) && v.getLsbD 1))

/-- The turn clears ERR or resets the unit. -/
def Turn.clearsError : Turn → Bool
  | .engine => false
  | .host r => r.clearsError
  | .bus addr size kind =>
    match windowOffset Config.windowBase addr with
    | some off => (HostReq.mk off size kind).clearsError
    | none => false
  | .rst => true

/-- The turn reaches the unit: it is no platform access outside the window (R52). -/
def Turn.reachesUnit : Turn → Bool
  | .bus addr _ _ => (windowOffset Config.windowBase addr).isSome
  | _ => true

/-- K lies in [2^L, 2^(L+1)) for an exponent L of the profile: 136..140 narrow, 168 wide (R114). -/
def keyInRange (p : Profile) (k : Nat) : Prop :=
  match p with
  | .narrow => ∃ l, 136 ≤ l ∧ l ≤ 140 ∧ 2 ^ l ≤ k ∧ k < 2 ^ (l + 1)
  | .wide => 2 ^ 168 ≤ k ∧ k < 2 ^ 169

/-- m is below 2^51 narrow, 2^63 wide (R114, R140). -/
def limbInRange (p : Profile) (m : Nat) : Prop :=
  match p with
  | .narrow => m < 2 ^ 51
  | .wide => m < 2 ^ 63

/-- r is below 2^127 + 2^(192 - NSH(P)) (R114, R133). -/
def noiseBelow (p : Profile) (r : Nat) : Prop := r < 2 ^ 127 + 2 ^ (192 - p.nsh)

/-- `v[hi:lo]` of a command word, as an unsigned integer (R9). -/
def bitsOf (w : CommandWord) (hi lo : Nat) : Nat := w.toNat / 2 ^ lo % 2 ^ (hi - lo + 1)

/-- The register a 3-bit field at bits lo+2:lo names (R76). -/
def regBits (w : CommandWord) (lo : Nat) : Fin 8 := Fin.ofNat 8 (bitsOf w (lo + 2) lo)

/-- The profile bit 25 selects (R72). -/
def profileBits (w : CommandWord) : Profile := if bitsOf w 25 25 = 1 then .wide else .narrow

/-- The 49 reserved opcodes of R82. -/
def reservedOpcode (opc : Nat) : Prop :=
  opc = 0x06 ∨ opc = 0x07 ∨ opc = 0x0D ∨ opc = 0x0E ∨ opc = 0x0F ∨ (0x14 ≤ opc ∧ opc ≤ 0x3F)

/-- The window offsets of CTR, S, V and BUF (R51). -/
def operandOffset (off : Nat) : Prop :=
  off % 8 = 0 ∧ (off = 0x028 ∨ (0x080 ≤ off ∧ off < 0x0C0) ∨ (0x100 ≤ off ∧ off < 0x240))

/-- The reserved window offsets that are multiples of 8 (R59). -/
def reservedOffset (off : Nat) : Prop :=
  off % 8 = 0 ∧ ((0x030 ≤ off ∧ off ≤ 0x07F) ∨ (0x0C0 ≤ off ∧ off ≤ 0x0FF) ∨ (0x240 ≤ off ∧ off ≤ 0xFFF))

/-- Every element of the state is at the value of R44's table. -/
structure State.HasResetValues (s : State) : Prop where
  vreg : ∀ i : VReg, s.vreg[i] = 0#256
  sreg : ∀ i : SReg, s.sreg[i] = 0#64
  ctr : s.ctr = 0#64
  buf : ∀ a, s.buf.read a = 0x00#8
  irqEn : s.irqEn = false
  done : s.done = false
  err : s.err = false
  chk : s.chk = false
  ecode : s.ecode = 0x00#8
  cmdcnt : s.cmdcnt = 0#64
  pend : s.pend = none
  busy : s.busy = false
  irq : s.irq = false
  id : s.windowValue .id = 0x4F50455500010308#64

end Sys2Proof.Machine
end

