-- ==== Sys2Proof/Certificates/Slice0/Obligations.lean ====
section
/-! DEFINITION. The statements about the unit. Each docstring names the rules it formalises; "the model's" marks what
rests on a log entry instead. Where a command completes, its whole next state is given: the fields not named are
unchanged, so the frame is part of the equation. The fields `turns` and `rsp` of a next state hold the interface and are
the model's in every statement (log entries 1 and 4). -/

open Sys2Proof Sys2Proof.Machine

/-! ### Encoding -/

/-- Decoding the word of a well-formed command gives it back, every operand at every value (R74, R75, R77, R86). -/
def Obligations.DecodeEncodeRoundTrip : Prop :=
  ∀ i : Instr, i.wellFormed = true → decode (encode i) = .ok i

/-- A word that decodes is the word of the well-formed command it decodes to: no bit is dropped (R81, R87). -/
def Obligations.EncodeDecodeRoundTrip : Prop :=
  ∀ (w : CommandWord) (i : Instr), decode w = .ok i → i.wellFormed = true ∧ encode i = w

/-- R87: the match values differ in OPC, at most one row matches a word, and a word matches no row exactly when decode
raises an error. -/
def Obligations.DecodeUnambiguous : Prop :=
  (opcodeRows.Pairwise fun r q => bitsOf r.pattern 31 26 ≠ bitsOf q.pattern 31 26) ∧
  (opcodeRows.Pairwise fun r q =>
    ∀ w : CommandWord, ¬(w &&& r.mask = r.pattern ∧ w &&& q.mask = q.pattern)) ∧
  (∀ w : CommandWord,
    (∀ r ∈ opcodeRows, w &&& r.mask ≠ r.pattern) ↔
      (decode w = .error .reservedOpcode ∨ decode w = .error .reservedField))

/-- R81: for every mnemonic, a word selects it exactly when (word & mask) = match, and its operands are then the fields
of R74 and R75, with n = CNT + 1 for the moves and len = CNT for PACK (R77). -/
def Obligations.MaskAndMatchSelectTheCommand : Prop :=
  ∀ w : CommandWord,
    (w &&& 0xFFFFFFFF#32 = 0x00000000#32 ↔ decode w = .ok .nop) ∧
    (w &&& 0xFC00FFFF#32 = 0x04000000#32 ↔
      decode w = .ok (.add (profileBits w) (regBits w 22) (regBits w 19) (regBits w 16))) ∧
    (w &&& 0xFC00FFFF#32 = 0x08000000#32 ↔
      decode w = .ok (.sub (profileBits w) (regBits w 22) (regBits w 19) (regBits w 16))) ∧
    (w &&& 0xFC00FFFF#32 = 0x0C000000#32 ↔
      decode w = .ok (.scale (profileBits w) (regBits w 22) (regBits w 19) (regBits w 16))) ∧
    (w &&& 0xFC00FFFF#32 = 0x10000000#32 ↔
      decode w = .ok (.divs (profileBits w) (regBits w 22) (regBits w 19) (regBits w 16))) ∧
    (w &&& 0xFC001FFF#32 = 0x14000000#32 ↔
      decode w = .ok (.enc (profileBits w) (regBits w 22) (regBits w 19) (regBits w 16) (regBits w 13))) ∧
    (w &&& 0xFC07FFFF#32 = 0x20000000#32 ↔
      decode w = .ok (.kform (profileBits w) (regBits w 22) (regBits w 19))) ∧
    (w &&& 0xFC07FFFF#32 = 0x24000000#32 ↔
      decode w = .ok (.noise (profileBits w) (regBits w 22) (regBits w 19))) ∧
    (w &&& 0xFC0007FF#32 = 0x28000000#32 ↔
      decode w = .ok (.pack (profileBits w) (regBits w 22) (bitsOf w 21 16) (bitsOf w 15 11))) ∧
    (w &&& 0xFC00F8FF#32 = 0x2C000000#32 ↔
      decode w = .ok (.unpack (profileBits w) (regBits w 22) (regBits w 8) (bitsOf w 21 16))) ∧
    (w &&& 0xFFC0F87F#32 = 0x30000000#32 ↔
      decode w = .ok (.prfmsg (regBits w 8) (bitsOf w 21 16) (decide (bitsOf w 7 7 = 1)))) ∧
    (w &&& 0xFE0007FF#32 = 0x40000000#32 ↔
      decode w = .ok (.ldle (regBits w 22) (bitsOf w 21 16) (bitsOf w 15 11 + 1))) ∧
    (w &&& 0xFE0007FF#32 = 0x44000000#32 ↔
      decode w = .ok (.ldbe (regBits w 22) (bitsOf w 21 16) (bitsOf w 15 11 + 1))) ∧
    (w &&& 0xFE0007FF#32 = 0x48000000#32 ↔
      decode w = .ok (.stle (regBits w 22) (bitsOf w 21 16) (bitsOf w 15 11 + 1))) ∧
    (w &&& 0xFE0007FF#32 = 0x4C000000#32 ↔
      decode w = .ok (.stbe (regBits w 22) (bitsOf w 21 16) (bitsOf w 15 11 + 1)))

/-- R90: the eight worked encodings, in both directions. -/
def Obligations.WorkedEncodings : Prop :=
  (encode (.add .narrow 1 2 3) = 0x04530000#32 ∧ decode 0x04530000#32 = .ok (.add .narrow 1 2 3)) ∧
  (encode (.enc .wide 4 0 1 3) = 0x17016000#32 ∧ decode 0x17016000#32 = .ok (.enc .wide 4 0 1 3)) ∧
  (encode (.ldle 0 0 24) = 0x4000B800#32 ∧ decode 0x4000B800#32 = .ok (.ldle 0 0 24)) ∧
  (encode (.stbe 4 0 29) = 0x4D00E000#32 ∧ decode 0x4D00E000#32 = .ok (.stbe 4 0 29)) ∧
  (encode (.prfmsg 1 0 true) = 0x30000180#32 ∧ decode 0x30000180#32 = .ok (.prfmsg 1 0 true)) ∧
  (encode (.divs .wide 2 5 0) = 0x12A80000#32 ∧ decode 0x12A80000#32 = .ok (.divs .wide 2 5 0)) ∧
  (encode (.pack .wide 1 32 7) = 0x2A603800#32 ∧ decode 0x2A603800#32 = .ok (.pack .wide 1 32 7)) ∧
  (encode (.unpack .wide 3 2 40) = 0x2EE80200#32 ∧ decode 0x2EE80200#32 = .ok (.unpack .wide 3 2 40))

/-! ### The engine -/

/-- When the engine has the turn and the pending word decodes, step is exec of that command, the turn taken off the
schedule; exec itself retires the command (R36, R41, R86). How turns are scheduled is the model's (log entry 1). -/
def Obligations.StepRunsDecodedCommand : Prop :=
  ∀ (s : State) (w : CommandWord) (i : Instr) (rest : List Turn),
    s.engineNext rest → s.pend = some w → decode w = .ok i → step s = exec i { s with turns := rest }

/-- A pending word with a reserved OPC, whatever its other bits, ends in E_OPC: nothing changes but DONE, CMDCNT, the
error, and PEND empty (R82, R182, R41). -/
def Obligations.ReservedOpcodeRaisesOpc : Prop :=
  ∀ (s : State) (w : CommandWord) (rest : List Turn),
    s.engineNext rest → s.pend = some w → reservedOpcode (bitsOf w 31 26) →
      step s = .next (State.afterError { s with turns := rest } 0x01#8)

/-- A pending word whose OPC is assigned but which has a wrong bit under its row's mask ends in E_FIELD (R83, R183). -/
def Obligations.ReservedFieldRaisesField : Prop :=
  ∀ (s : State) (w : CommandWord) (rest : List Turn), ∀ r ∈ opcodeRows,
    s.engineNext rest → s.pend = some w → bitsOf w 31 26 = r.opc.toNat → w &&& r.mask ≠ r.pattern →
      step s = .next (State.afterError { s with turns := rest } 0x02#8)

/-- With no command pending and no turn left the unit changes no state (R196); a turn given to an engine that is not
enabled only leaves the schedule, which is the model's choice (log entry 8). -/
def Obligations.IdleUnitChangesNothing : Prop :=
  ∀ s : State, s.pend = none →
    (s.turns = [] → step s = .next s) ∧
    (∀ rest, s.turns = .engine :: rest → step s = .next { s with turns := rest })

/-- Every command, with or without error, retires in one step: PEND empty, DONE set, CMDCNT one up modulo 2^64, and
IRQ_EN and the interface fields unchanged (R29, R37, R41). -/
def Obligations.EveryCommandRetires : Prop :=
  ∀ (i : Instr) (s : State), ∃ t, exec i s = .next t ∧
    t.pend = none ∧ t.done = true ∧ t.cmdcnt.toNat = (s.cmdcnt.toNat + 1) % 2 ^ 64 ∧
    t.irqEn = s.irqEn ∧ t.turns = s.turns ∧ t.rsp = s.rsp ∧ t.draws = s.draws

/-- A command that raises an error has none of its effects, and its code is one of the command errors; one that raises
none leaves ERR and ECODE; and while ERR = 1 neither changes (R14, R180, R181, R186). -/
def Obligations.CommandErrorsArePrecise : Prop :=
  ∀ (i : Instr) (s t : State), exec i s = .next t →
    (s.err = false → t.err = true →
      t = s.afterError t.ecode ∧ t.ecode ∈ [0x03#8, 0x04#8, 0x05#8, 0x06#8]) ∧
    (t.err = false → s.err = false ∧ t.ecode = s.ecode) ∧
    (s.err = true → t.err = true ∧ t.ecode = s.ecode)

/-- Only the commands that R22, R23 and R31 name write V, S and BUF; only PRFMSG with I = 1 changes CTR (R30, R145);
only UNPACK writes CHK (R32). -/
def Obligations.CommandsWriteOnlyWhatTheyMay : Prop :=
  ∀ (i : Instr) (s t : State), exec i s = .next t →
    (i.writesV = false → t.vreg = s.vreg) ∧
    (i.writesS = false → t.sreg = s.sreg) ∧
    (i.writesBuf = false → t.buf = s.buf) ∧
    ((∀ rs off, i ≠ .prfmsg rs off true) → t.ctr = s.ctr) ∧
    ((∀ p rg rs off, i ≠ .unpack p rg rs off) → t.chk = s.chk)

/-! ### The commands: what each leaves when it raises no error -/

/-- NOP's effect is DONE, CMDCNT, and the end of its own pending (R160, R161, R41). -/
def Obligations.NopResult : Prop :=
  ∀ s : State, exec .nop s = .next { s with pend := none, done := true, cmdcnt := s.cmdcnt + 1#64 }

/-- ADD: the sum of the sources' low w(P) bits modulo 2^w(P), zero-extended (R100, R45, R46). -/
def Obligations.AddResult : Prop :=
  ∀ (p : Profile) (rd ra rb : VReg) (s : State),
    exec (.add p rd ra rb) s = .next { s with
      vreg := s.vreg.set rd (BitVec.ofNat 256
        ((s.vreg[ra].toNat + s.vreg[rb].toNat) % 2 ^ p.width))
      pend := none, done := true, cmdcnt := s.cmdcnt + 1#64 }

/-- SUB: the difference modulo 2^w(P), the borrow discarded (R102, R45, R46). -/
def Obligations.SubResult : Prop :=
  ∀ (p : Profile) (rd ra rb : VReg) (s : State),
    exec (.sub p rd ra rb) s = .next { s with
      vreg := s.vreg.set rd (BitVec.ofNat 256
        (((s.vreg[ra].toNat : Int) - s.vreg[rb].toNat) % 2 ^ p.width).toNat)
      pend := none, done := true, cmdcnt := s.cmdcnt + 1#64 }

/-- SCALE: the product with the 64-bit scalar modulo 2^w(P) (R104, R45, R46). -/
def Obligations.ScaleResult : Prop :=
  ∀ (p : Profile) (rd ra : VReg) (rb : SReg) (s : State),
    exec (.scale p rd ra rb) s = .next { s with
      vreg := s.vreg.set rd (BitVec.ofNat 256
        ((s.vreg[ra].toNat * s.sreg[rb].toNat) % 2 ^ p.width))
      pend := none, done := true, cmdcnt := s.cmdcnt + 1#64 }

/-- ENC: K·m + r modulo 2^w(P) (R134, R45, R46). -/
def Obligations.EncResult : Prop :=
  ∀ (p : Profile) (rd ra : VReg) (rb : SReg) (rc : VReg) (s : State),
    exec (.enc p rd ra rb rc) s = .next { s with
      vreg := s.vreg.set rd (BitVec.ofNat 256
        ((s.vreg[ra].toNat * s.sreg[rb].toNat + s.vreg[rc].toNat) % 2 ^ p.width))
      pend := none, done := true, cmdcnt := s.cmdcnt + 1#64 }

/-- KFORM: limbs l0 and l1 kept, the top t = KEXP(P) - 128 bits of l2 with 2^t above them, l3 zero (R130). -/
def Obligations.KformResult : Prop :=
  ∀ (p : Profile) (rd ra : VReg) (s : State),
    exec (.kform p rd ra) s = .next { s with
      vreg := s.vreg.set rd (BitVec.ofNat 256
        (s.vreg[ra].toNat % 2 ^ 128 +
          (s.vreg[ra].toNat / 2 ^ 128 % 2 ^ 64 / 2 ^ (64 - (p.kexp - 128)) + 2 ^ (p.kexp - 128)) * 2 ^ 128))
      pend := none, done := true, cmdcnt := s.cmdcnt + 1#64 }

/-- NOISE: l2 shifted right by NSH(P), 2^127 added with full carry (R132). -/
def Obligations.NoiseResult : Prop :=
  ∀ (p : Profile) (rd ra : VReg) (s : State),
    exec (.noise p rd ra) s = .next { s with
      vreg := s.vreg.set rd (BitVec.ofNat 256
        (s.vreg[ra].toNat % 2 ^ 128 +
          s.vreg[ra].toNat / 2 ^ 128 % 2 ^ 64 / 2 ^ p.nsh * 2 ^ 128 + 2 ^ 127))
      pend := none, done := true, cmdcnt := s.cmdcnt + 1#64 }

/-- PACK with len ≤ B(P) and the bytes inside BUF: the bytes left-aligned in a B(P)-byte big-endian field, then the
length tag, then the marker for P = 1 (R137). -/
def Obligations.PackResult : Prop :=
  ∀ (p : Profile) (rg : SReg) (off len : Nat) (s : State),
    len ≤ p.blockBytes → off + len ≤ 64 →
    exec (.pack p rg off len) s = .next { s with
      sreg := s.sreg.set rg (BitVec.ofNat 64
        ((∑ i ∈ Finset.range len, (s.buf.read (off + i)).toNat * 2 ^ (8 * (p.blockBytes - 1 - i))) * 8 + len +
          (if p = .wide then 15 * 2 ^ 59 else 0)))
      pend := none, done := true, cmdcnt := s.cmdcnt + 1#64 }

/-- UNPACK with its B(P) bytes inside BUF: the field bytes big-endian, the length tag into S, CHK = 1 exactly when the
tag is at most B(P) and, for P = 1, bits 62:59 are 0b1111 (R141, R142, R143); every other byte is unchanged. -/
def Obligations.UnpackResult : Prop :=
  ∀ (p : Profile) (rg rs : SReg) (off : Nat) (s : State), off + p.blockBytes ≤ 64 →
    ∃ t, exec (.unpack p rg rs off) s = .next t ∧
      t = { s with
        buf := t.buf
        sreg := s.sreg.set rg (BitVec.ofNat 64 (s.sreg[rs].toNat % 8))
        chk := decide (s.sreg[rs].toNat % 8 ≤ p.blockBytes ∧
          (p = .wide → s.sreg[rs].toNat / 2 ^ 59 % 16 = 15))
        pend := none, done := true, cmdcnt := s.cmdcnt + 1#64 } ∧
      (∀ i, i < p.blockBytes →
        (t.buf.read (off + i)).toNat = s.sreg[rs].toNat / 8 / 2 ^ (8 * (p.blockBytes - 1 - i)) % 256) ∧
      (∀ a, ¬(off ≤ a ∧ a < off + p.blockBytes) → t.buf.read a = s.buf.read a)

/-- PRFMSG with OFF ≤ 48: m and then the old CTR as 16 big-endian bytes; CTR one up modulo 2^64 where I = 1 (R144,
R145, R46); every other byte is unchanged. -/
def Obligations.PrfmsgResult : Prop :=
  ∀ (rs : SReg) (off : Nat) (inc : Bool) (s : State), off ≤ 48 →
    ∃ t, exec (.prfmsg rs off inc) s = .next t ∧
      t = { s with
        buf := t.buf
        ctr := if inc = true then s.ctr + 1#64 else s.ctr
        pend := none, done := true, cmdcnt := s.cmdcnt + 1#64 } ∧
      (∀ i, i < 8 → (t.buf.read (off + i)).toNat = s.sreg[rs].toNat / 2 ^ (8 * (7 - i)) % 256) ∧
      (∀ i, i < 8 → (t.buf.read (off + 8 + i)).toNat = s.ctr.toNat / 2 ^ (8 * (7 - i)) % 256) ∧
      (∀ a, ¬(off ≤ a ∧ a < off + 16) → t.buf.read a = s.buf.read a)

/-- LDLE and LDBE with their bytes inside BUF: the n bytes as a little-endian or big-endian integer, zero-extended
(R13, R162, R164). -/
def Obligations.LoadResults : Prop :=
  ∀ (rg : VReg) (off n : Nat) (s : State), off + n ≤ 64 →
    exec (.ldle rg off n) s = .next { s with
      vreg := s.vreg.set rg (BitVec.ofNat 256
        (∑ i ∈ Finset.range n, (s.buf.read (off + i)).toNat * 2 ^ (8 * i)))
      pend := none, done := true, cmdcnt := s.cmdcnt + 1#64 } ∧
    exec (.ldbe rg off n) s = .next { s with
      vreg := s.vreg.set rg (BitVec.ofNat 256
        (∑ i ∈ Finset.range n, (s.buf.read (off + i)).toNat * 2 ^ (8 * (n - 1 - i))))
      pend := none, done := true, cmdcnt := s.cmdcnt + 1#64 }

/-- STLE and STBE with their bytes inside BUF: exactly the low n bytes of V, in either order; every other byte and all
else is unchanged (R13, R166, R167, R168). -/
def Obligations.StoreResults : Prop :=
  ∀ (rg : VReg) (off n : Nat) (s : State), off + n ≤ 64 →
    (∃ t, exec (.stle rg off n) s = .next t ∧
      t = { s with buf := t.buf, pend := none, done := true, cmdcnt := s.cmdcnt + 1#64 } ∧
      (∀ i, i < n → (t.buf.read (off + i)).toNat = s.vreg[rg].toNat / 2 ^ (8 * i) % 256) ∧
      (∀ a, ¬(off ≤ a ∧ a < off + n) → t.buf.read a = s.buf.read a)) ∧
    (∃ t, exec (.stbe rg off n) s = .next t ∧
      t = { s with buf := t.buf, pend := none, done := true, cmdcnt := s.cmdcnt + 1#64 } ∧
      (∀ i, i < n → (t.buf.read (off + i)).toNat = s.vreg[rg].toNat / 2 ^ (8 * (n - 1 - i)) % 256) ∧
      (∀ a, ¬(off ≤ a ∧ a < off + n) → t.buf.read a = s.buf.read a))

/-! ### DIVS -/

/-- R112: on a divisor that passes R107, DIVS writes o* where o* < 2^64 and raises E_DIVRNG where it is not, with
o* = floor(p / q) + (1 if (p mod q) ≥ q.l2·2^128 else 0). -/
def Obligations.DivsClosedForm : Prop :=
  ∀ (p : Profile) (rd : SReg) (ra rb : VReg) (s : State) (x q o : Nat),
    x = s.vreg[ra].toNat % 2 ^ p.width → q = s.vreg[rb].toNat % 2 ^ p.width →
    q / 2 ^ 128 % 2 ^ 64 ≠ 0 → q / 2 ^ 128 % 2 ^ 64 ≠ 2 ^ 64 - 1 → (p = .wide → q / 2 ^ 192 = 0) →
    o = x / q + (if x % q ≥ q / 2 ^ 128 % 2 ^ 64 * 2 ^ 128 then 1 else 0) →
    (o < 2 ^ 64 → exec (.divs p rd ra rb) s = .next { s with
      sreg := s.sreg.set rd (BitVec.ofNat 64 o)
      pend := none, done := true, cmdcnt := s.cmdcnt + 1#64 }) ∧
    (2 ^ 64 ≤ o → exec (.divs p rd ra rb) s = .next (s.afterError 0x06#8))

/-- R107: a divisor with q.l2 = 0, with q.l2 = 2^64 - 1, or under P = 1 with q.l3 ≠ 0 raises E_DIVPRE whatever the
dividend, S[RD] unchanged; no other divisor does. -/
def Obligations.DivsRefusesDivisor : Prop :=
  ∀ (p : Profile) (rd : SReg) (ra rb : VReg) (s : State) (q : Nat),
    q = s.vreg[rb].toNat % 2 ^ p.width →
    ((q / 2 ^ 128 % 2 ^ 64 = 0 ∨ q / 2 ^ 128 % 2 ^ 64 = 2 ^ 64 - 1 ∨ (p = .wide ∧ q / 2 ^ 192 ≠ 0)) →
      exec (.divs p rd ra rb) s = .next (s.afterError 0x05#8)) ∧
    (∀ t, s.err = false → s.ecode = 0#8 → exec (.divs p rd ra rb) s = .next t → t.ecode = 0x05#8 →
      q / 2 ^ 128 % 2 ^ 64 = 0 ∨ q / 2 ^ 128 % 2 ^ 64 = 2 ^ 64 - 1 ∨ (p = .wide ∧ q / 2 ^ 192 ≠ 0))

/-- R114: on the scheme's ranges DIVS writes the quotient m that ENC's map was given; and under P = 0 DIVS never raises
E_DIVRNG. -/
def Obligations.DivsInvertsTheScheme : Prop :=
  (∀ (p : Profile) (rd : SReg) (ra rb : VReg) (s : State) (k m r : Nat),
    keyInRange p k → limbInRange p m → noiseBelow p r →
    s.vreg[ra].toNat = m * k + r → s.vreg[rb].toNat = k →
    exec (.divs p rd ra rb) s = .next { s with
      sreg := s.sreg.set rd (BitVec.ofNat 64 m)
      pend := none, done := true, cmdcnt := s.cmdcnt + 1#64 }) ∧
  (∀ (rd : SReg) (ra rb : VReg) (s t : State), s.err = false → s.ecode = 0#8 →
    exec (.divs .narrow rd ra rb) s = .next t → t.ecode ≠ 0x06#8)

/-! ### Limb-level forms and value ranges -/

/-- R101: ADD is addition with carry across the w/64 limbs, the final carry dropped. -/
def Obligations.AddEqualsLimbForm : Prop :=
  ∀ (p : Profile) (rd ra rb : VReg) (s t : State), exec (.add p rd ra rb) s = .next t →
    t.vreg[rd].toNat = (addLimbs s.vreg[ra].toNat s.vreg[rb].toNat p.limbs).1

/-- R103: SUB is subtraction with borrow across the w/64 limbs, the final borrow dropped. -/
def Obligations.SubEqualsLimbForm : Prop :=
  ∀ (p : Profile) (rd ra rb : VReg) (s t : State), exec (.sub p rd ra rb) s = .next t →
    t.vreg[rd].toNat = (subLimbs s.vreg[ra].toNat s.vreg[rb].toNat p.limbs).1

/-- R105: SCALE is the column of 64×64 products, low halves in place and high halves one limb up, the last high half
dropped; and that is the sum of the whole products modulo 2^w. -/
def Obligations.ScaleEqualsLimbForm : Prop :=
  ∀ (p : Profile) (rd ra : VReg) (rb : SReg) (s t : State), exec (.scale p rd ra rb) s = .next t →
    t.vreg[rd].toNat = scaleLimbs s.vreg[ra].toNat s.sreg[rb].toNat p.limbs ∧
    t.vreg[rd].toNat =
      (∑ j ∈ Finset.range p.limbs, limb s.vreg[ra].toNat j * s.sreg[rb].toNat * 2 ^ (64 * j)) % 2 ^ p.width

/-- R131: KFORM's result lies in [2^KEXP(P), 2^(KEXP(P)+1)), its limb l2 in [2^t, 2^(t+1)), its limb l3 is 0, and DIVS
under either width never refuses it as a divisor. -/
def Obligations.KformRange : Prop :=
  ∀ (p : Profile) (rd ra : VReg) (s t : State), exec (.kform p rd ra) s = .next t →
    2 ^ p.kexp ≤ t.vreg[rd].toNat ∧ t.vreg[rd].toNat < 2 ^ (p.kexp + 1) ∧
    2 ^ (p.kexp - 128) ≤ t.vreg[rd].toNat / 2 ^ 128 % 2 ^ 64 ∧
    t.vreg[rd].toNat / 2 ^ 128 % 2 ^ 64 < 2 ^ (p.kexp - 128 + 1) ∧
    t.vreg[rd].toNat / 2 ^ 192 = 0 ∧
    ∀ (p' : Profile) (rd' : SReg) (ra' rb' : VReg) (s' t' : State),
      s'.vreg[rb'] = t.vreg[rd] → s'.err = false → s'.ecode = 0#8 →
      exec (.divs p' rd' ra' rb') s' = .next t' → t'.ecode ≠ 0x05#8

/-- R133: NOISE's result lies in [2^127, 2^127 + 2^(192-NSH(P))), and for every K that KFORM produces under the same
profile r lies strictly in (K^(3/4), K - K^(3/4)), said without roots. -/
def Obligations.NoiseWindow : Prop :=
  ∀ (p : Profile) (rd ra : VReg) (s t : State), exec (.noise p rd ra) s = .next t →
    2 ^ 127 ≤ t.vreg[rd].toNat ∧ t.vreg[rd].toNat < 2 ^ 127 + 2 ^ (192 - p.nsh) ∧
    ∀ (rd' ra' : VReg) (s' t' : State), exec (.kform p rd' ra') s' = .next t' →
      t'.vreg[rd'].toNat ^ 3 < t.vreg[rd].toNat ^ 4 ∧ t.vreg[rd].toNat < t'.vreg[rd'].toNat ∧
      t'.vreg[rd'].toNat ^ 3 < (t'.vreg[rd'].toNat - t.vreg[rd].toNat) ^ 4

/-- R135: with K, m and r in the ranges of KFORM, PACK and NOISE, ENC does not wrap and its result fits CW(P) bytes and
lies in (m·K, (m+1)·K); so a smaller m gives a smaller c, each block under its own noise. -/
def Obligations.EncFitsAndPreservesOrder : Prop :=
  ∀ (p : Profile) (rd ra rc rd' ra' rc' : VReg) (rb rb' : SReg) (s t s' t' : State) (k m r m' r' : Nat),
    2 ^ p.kexp ≤ k → k < 2 ^ (p.kexp + 1) →
    limbInRange p m → 2 ^ 127 ≤ r → noiseBelow p r →
    limbInRange p m' → 2 ^ 127 ≤ r' → noiseBelow p r' →
    s.vreg[ra].toNat = k → s.sreg[rb].toNat = m → s.vreg[rc].toNat = r →
    s'.vreg[ra'].toNat = k → s'.sreg[rb'].toNat = m' → s'.vreg[rc'].toNat = r' →
    exec (.enc p rd ra rb rc) s = .next t → exec (.enc p rd' ra' rb' rc') s' = .next t' →
    t.vreg[rd].toNat = k * m + r ∧ t.vreg[rd].toNat < 2 ^ (8 * p.cipherBytes) ∧
    m * k < t.vreg[rd].toNat ∧ t.vreg[rd].toNat < (m + 1) * k ∧
    (m < m' → t.vreg[rd].toNat < t'.vreg[rd'].toNat)

/-! ### PACK and UNPACK -/

/-- R138: PACK with len > B(P) raises E_PACK and writes nothing, whatever the range (R185). -/
def Obligations.PackTooLongRaisesPack : Prop :=
  ∀ (p : Profile) (rg : SReg) (off len : Nat) (s : State), (if p = .narrow then 6 else 7) < len →
    exec (.pack p rg off len) s = .next (s.afterError 0x03#8)

/-- R140: a packed limb is below 2^51 under P = 0, and in [15·2^59, 2^63) under P = 1. -/
def Obligations.PackBounds : Prop :=
  ∀ (p : Profile) (rg : SReg) (off len : Nat) (s t : State),
    len ≤ p.blockBytes → off + len ≤ 64 → exec (.pack p rg off len) s = .next t →
    (p = .narrow → t.sreg[rg].toNat < 2 ^ 51) ∧
    (p = .wide → 15 * 2 ^ 59 ≤ t.sreg[rg].toNat ∧ t.sreg[rg].toNat < 2 ^ 63)

/-- R139: the byte-lexicographic order of two chunks of at most B(P) bytes, a proper prefix first, is the numeric order
of their packed limbs. -/
def Obligations.PackPreservesOrder : Prop :=
  ∀ (p : Profile) (rg rg' : SReg) (off len off' len' : Nat) (s t s' t' : State),
    len ≤ p.blockBytes → off + len ≤ 64 → len' ≤ p.blockBytes → off' + len' ≤ 64 →
    exec (.pack p rg off len) s = .next t → exec (.pack p rg' off' len') s' = .next t' →
    (((List.range len).map fun i => s.buf.read (off + i)) <
        ((List.range len').map fun i => s'.buf.read (off' + i)) ↔
      t.sreg[rg].toNat < t'.sreg[rg'].toNat)

/-- UNPACK of what PACK made gives back the bytes, zeros after them, the length, and CHK = 1 (R137, R141, R142). -/
def Obligations.UnpackInvertsPack : Prop :=
  ∀ (p : Profile) (rm rl : SReg) (off len off' : Nat) (s t : State),
    len ≤ p.blockBytes → off + len ≤ 64 → off' + p.blockBytes ≤ 64 →
    exec (.pack p rm off len) s = .next t →
    ∃ u, exec (.unpack p rl rm off') t = .next u ∧
      u.sreg[rl].toNat = len ∧ u.chk = true ∧
      (∀ i, i < len → u.buf.read (off' + i) = s.buf.read (off + i)) ∧
      (∀ i, len ≤ i → i < p.blockBytes → u.buf.read (off' + i) = 0#8)

/-! ### BUF ranges and moves -/

/-- R184: each of the seven commands whose range [OFF, OFF + count) ends past byte 63 raises E_BUF, and neither reads
nor writes a byte; PACK once its length is legal (R185). -/
def Obligations.RangePastBufRaisesBuf : Prop :=
  ∀ s : State,
    (∀ (p : Profile) (rg : SReg) (off len : Nat), len ≤ p.blockBytes → 64 < off + len →
      exec (.pack p rg off len) s = .next (s.afterError 0x04#8)) ∧
    (∀ (p : Profile) (rg rs : SReg) (off : Nat), 64 < off + p.blockBytes →
      exec (.unpack p rg rs off) s = .next (s.afterError 0x04#8)) ∧
    (∀ (rs : SReg) (off : Nat) (inc : Bool), 64 < off + 16 →
      exec (.prfmsg rs off inc) s = .next (s.afterError 0x04#8)) ∧
    (∀ (rg : VReg) (off n : Nat), 64 < off + n →
      exec (.ldle rg off n) s = .next (s.afterError 0x04#8) ∧
      exec (.ldbe rg off n) s = .next (s.afterError 0x04#8) ∧
      exec (.stle rg off n) s = .next (s.afterError 0x04#8) ∧
      exec (.stbe rg off n) s = .next (s.afterError 0x04#8))

/-- R169: the block width is 24 or 29 bytes, and STBE then LDBE of a block gives back every value below
2^(8·CW(P)). -/
def Obligations.BlockStoreLoadRoundTrip : Prop :=
  Profile.narrow.cipherBytes = 24 ∧ Profile.wide.cipherBytes = 29 ∧
  ∀ (p : Profile) (rc rd : VReg) (off : Nat) (s t : State),
    off + p.cipherBytes ≤ 64 → s.vreg[rc].toNat < 2 ^ (8 * p.cipherBytes) →
    exec (.stbe rc off p.cipherBytes) s = .next t →
    ∃ u, exec (.ldbe rd off p.cipherBytes) t = .next u ∧ u.vreg[rd] = s.vreg[rc]

/-- R163: `ldle v, OFF, 24` makes the three low limbs the little-endian 64-bit words of the 24 bytes, and limb l3
zero. -/
def Obligations.LdleReadsThreeLimbs : Prop :=
  ∀ (rg : VReg) (off : Nat) (s : State), off + 24 ≤ 64 →
    ∃ t, exec (.ldle rg off 24) s = .next t ∧
      (∀ j, j < 3 → ((t.vreg[rg]).extractLsb' (64 * j) 64).toNat =
        ∑ b ∈ Finset.range 8, (s.buf.read (off + 8 * j + b)).toNat * 2 ^ (8 * b)) ∧
      (t.vreg[rg]).extractLsb' 192 64 = 0#64

/-! ### Reset, invariant, runs -/

/-- R44: a hardware reset and a soft reset set every element of the state to the table's value, whatever the state was;
and State.reset is such a state. -/
def Obligations.ResetValues : Prop :=
  State.reset.HasResetValues ∧
  ∀ (s : State) (rest : List Turn) (v : Limb),
    (s.turns = .rst :: rest ∨ (s.turns = hostW 0x008 v :: rest ∧ v.getLsbD 1 = true)) →
    ∃ t, step s = .next t ∧ t.HasResetValues

/-- The soft reset does exactly what the hardware reset does, whatever the unit's state and whatever bit 0 is (R44,
R210, R211). That the schedule and the count of draws stay and the last response becomes none is the model's choice
and no rule's (log entry 10). -/
def Obligations.SoftResetEqualsHardwareReset : Prop :=
  ∀ (s : State) (rest : List Turn) (v : Limb), v.getLsbD 1 = true →
    (s.turns = hostW 0x008 v :: rest →
      step s = .next { State.reset with turns := rest, draws := s.draws }) ∧
    (s.turns = .rst :: rest →
      step s = .next { State.reset with turns := rest, draws := s.draws })

/-- The invariant holds after reset (R44). -/
def Obligations.ResetMeetsInvariant : Prop := State.reset.Inv

/-- Every step, of either agent, keeps the invariant: BUF canonical inside its 64 bytes, ECODE 0 while ERR = 0 and one
of the nine codes of R180 while ERR = 1 (R26, R54, R180, R181). -/
def Obligations.StepKeepsInvariant : Prop :=
  ∀ s t : State, s.Inv → step s = .next t → t.Inv

/-- ERR is sticky and the first code stays: no step but a STATUS write with bit 2 or a reset clears ERR or changes ECODE
while ERR = 1 (R181, R186, R190). -/
def Obligations.FirstErrorStays : Prop :=
  ∀ s t : State, s.err = true → (∀ tn rest, s.turns = tn :: rest → tn.clearsError = false) →
    step s = .next t → t.err = true ∧ t.ecode = s.ecode

/-- A schedule whose accesses all reach the unit runs to its end, and one step later the unit is quiescent: every
engine step is finite and the engine runs once no turn is left (R37, R42, R111, R223; log entry 1). -/
def Obligations.ScheduleRunsToQuiescence : Prop :=
  ∀ s : State, (∀ tn ∈ s.turns, tn.reachesUnit = true) →
    ∃ t : State, Host.Core.run Sys2Proof.core (s.turns.length + 1) s = .next t ∧
      t.turns = [] ∧ t.pend = none

/-- R191: irq = IRQ_EN and (DONE or ERR); so a retired command raises it where IRQ_EN = 1, and a STATUS write with bits
1 and 2, or a CTRL write with bit 0 clear, drops it. -/
def Obligations.InterruptOutput : Prop :=
  (∀ s : State, s.irq = true ↔ s.irqEn = true ∧ (s.done = true ∨ s.err = true)) ∧
  (∀ (i : Instr) (s t : State), exec i s = .next t → t.irq = s.irqEn) ∧
  (∀ (s : State) (rest : List Turn) (v : Limb), s.turns = hostW 0x010 v :: rest →
    v.getLsbD 1 = true → v.getLsbD 2 = true → ∃ t, step s = .next t ∧ t.irq = false) ∧
  (∀ (s : State) (rest : List Turn) (v : Limb), s.turns = hostW 0x008 v :: rest →
    v.getLsbD 0 = false → ∃ t, step s = .next t ∧ t.irq = false)

/-- R213: on the registers as reset leaves them DIVS raises E_DIVPRE, UNPACK.w gives CHK = 0 without error, and every
command is defined. -/
def Obligations.CommandsOnUnwrittenRegisters : Prop :=
  (∀ (p : Profile) (rd : SReg) (ra rb : VReg),
    exec (.divs p rd ra rb) State.reset = .next (State.reset.afterError 0x05#8)) ∧
  (∀ (rg rs : SReg) (off : Nat), off + 7 ≤ 64 →
    ∃ t, exec (.unpack .wide rg rs off) State.reset = .next t ∧ t.chk = false ∧ t.err = false) ∧
  (∀ i : Instr, ∃ t, exec i State.reset = .next t)

/-- The constants each profile selects (R7, R8). `Profile.narrow.kexp = 140` is the model's choice: R7 and conflict C1
give KEXP_N this value out of the legal range 136..140 (log entry 6). -/
def Obligations.ProfileConstants : Prop :=
  (Profile.narrow.blockBytes = 6 ∧ Profile.wide.blockBytes = 7) ∧
  (Profile.narrow.cipherBytes = 24 ∧ Profile.wide.cipherBytes = 29) ∧
  (Profile.narrow.width = 192 ∧ Profile.wide.width = 256) ∧
  (Profile.narrow.kexp = 140 ∧ Profile.wide.kexp = 168) ∧
  (Profile.narrow.nsh = 57 ∧ Profile.wide.nsh = 25)

/-! ### The host window -/

/-- R28: a CMD write issues its low 32 bits while nothing is pending, and raises E_OVERRUN with PEND unchanged while
something is; a CMD read returns 0. -/
def Obligations.CmdRegister : Prop :=
  ∀ (s : State) (rest : List Turn) (v : Limb),
    (s.turns = hostW 0x018 v :: rest → s.pend = none →
      step s = .next { s with pend := some (v.extractLsb' 0 32), turns := rest, rsp := none }) ∧
    (s.turns = hostW 0x018 v :: rest → s.pend ≠ none →
      step s = .next { s.afterAccessError 0x10#8 with turns := rest, rsp := none }) ∧
    (s.turns = hostR 0x018 :: rest → step s = .next { s with turns := rest, rsp := some 0#64 })

/-- R27: a STATUS write clears DONE by bit 1, ERR and ECODE by bit 2, and nothing else, busy or not. -/
def Obligations.StatusWriteClears : Prop :=
  ∀ (s : State) (rest : List Turn) (v : Limb), s.turns = hostW 0x010 v :: rest →
    ∃ t, step s = .next t ∧
      t = { s with done := t.done, err := t.err, ecode := t.ecode, turns := rest, rsp := none } ∧
      (v.getLsbD 1 = true → t.done = false) ∧ (v.getLsbD 1 = false → t.done = s.done) ∧
      (v.getLsbD 2 = true → t.err = false ∧ t.ecode = 0x00#8) ∧
      (v.getLsbD 2 = false → t.err = s.err ∧ t.ecode = s.ecode)

/-- A CTRL write with bit 1 = 0 sets IRQ_EN to bit 0, busy or not; writes to ID and CMDCNT are ignored without error
(R24, R25, R29). -/
def Obligations.ControlAndReadOnlyWrites : Prop :=
  ∀ (s : State) (rest : List Turn) (v : Limb),
    (s.turns = hostW 0x008 v :: rest → v.getLsbD 1 = false →
      step s = .next { s with irqEn := v.getLsbD 0, turns := rest, rsp := none }) ∧
    (s.turns = hostW 0x000 v :: rest → step s = .next { s with turns := rest, rsp := none }) ∧
    (s.turns = hostW 0x020 v :: rest → step s = .next { s with turns := rest, rsp := none })

/-- An access that is not 8 bytes or not at a multiple of 8 raises E_BUS, whatever the offset; a read returns 0 and a
write changes nothing (R52). By platform address, an access inside the window is the access at its offset; that the
step refuses one outside it as `outsideWindow` is the model's choice and no rule's (log entry 7). -/
def Obligations.InadmissibleAccess : Prop :=
  (∀ (s : State) (rest : List Turn) (r : HostReq), s.turns = .host r :: rest →
    (r.size ≠ .bytes8 ∨ r.offset.toNat % 8 ≠ 0) →
    (r.kind = .read →
      step s = .next { s.afterAccessError 0x12#8 with turns := rest, rsp := some 0#64 }) ∧
    (r.kind ≠ .read →
      step s = .next { s.afterAccessError 0x12#8 with turns := rest, rsp := none })) ∧
  (∀ (s : State) (rest : List Turn) (addr : Nat) (size : AccessSize) (kind : AccessKind),
    s.turns = .bus addr size kind :: rest →
    ((addr < Config.windowBase ∨ Config.windowBase + 4096 ≤ addr) → step s = .refused .outsideWindow) ∧
    (∀ off, off < 4096 → addr = Config.windowBase + off →
      step s = step { s with turns := .host ⟨BitVec.ofNat 12 off, size, kind⟩ :: rest }))

/-- R59: the reserved offsets read 0, ignore writes, and raise no error, busy or not. -/
def Obligations.ReservedOffsets : Prop :=
  ∀ (s : State) (rest : List Turn) (off : Nat) (v : Limb), reservedOffset off →
    (s.turns = hostR off :: rest → step s = .next { s with turns := rest, rsp := some 0#64 }) ∧
    (s.turns = hostW off v :: rest → step s = .next { s with turns := rest, rsp := none })

/-- While nothing is pending a host write changes exactly the CTR, S register, V limb or BUF word it names (R22, R23,
R30, R51, R53, R56). -/
def Obligations.HostWritesOperandState : Prop :=
  ∀ (s : State) (rest : List Turn) (v : Limb), s.pend = none →
    (s.turns = hostW 0x028 v :: rest →
      step s = .next { s with ctr := v, turns := rest, rsp := none }) ∧
    (∀ i : SReg, s.turns = hostW (0x080 + 8 * i.val) v :: rest →
      step s = .next { s with sreg := s.sreg.set i v, turns := rest, rsp := none }) ∧
    (∀ (i : VReg) (j : Fin 4), s.turns = hostW (0x100 + 0x20 * i.val + 8 * j.val) v :: rest →
      ∃ t, step s = .next t ∧ t = { s with vreg := t.vreg, turns := rest, rsp := none } ∧
        (∀ i' : VReg, i' ≠ i → t.vreg[i'] = s.vreg[i']) ∧
        (∀ j' : Fin 4, (t.vreg[i]).extractLsb' (64 * j'.val) 64 =
          if j' = j then v else (s.vreg[i]).extractLsb' (64 * j'.val) 64)) ∧
    (∀ k : Fin 8, s.turns = hostW (0x200 + 8 * k.val) v :: rest →
      ∃ t, step s = .next t ∧ t = { s with buf := t.buf, turns := rest, rsp := none } ∧
        (∀ a, t.buf.read a = if 8 * k.val ≤ a ∧ a < 8 * k.val + 8 then v.extractLsb' (8 * (a - 8 * k.val)) 8
          else s.buf.read a))

/-- ID, CTRL, STATUS and CMDCNT read their current values, busy or not, and the read changes nothing of the unit
(R24, R25, R26, R29, R39, R58). -/
def Obligations.HostReadsControlState : Prop :=
  ∀ (s : State) (rest : List Turn),
    (s.turns = hostR 0x000 :: rest →
      step s = .next { s with turns := rest, rsp := some 0x4F50455500010308#64 }) ∧
    (s.turns = hostR 0x008 :: rest →
      step s = .next { s with turns := rest, rsp := some (if s.irqEn = true then 1#64 else 0#64) }) ∧
    (s.turns = hostR 0x010 :: rest →
      ∃ x : Limb, step s = .next { s with turns := rest, rsp := some x } ∧
        x.getLsbD 0 = s.pend.isSome ∧ x.getLsbD 1 = s.done ∧ x.getLsbD 2 = s.err ∧ x.getLsbD 3 = s.chk ∧
        x.extractLsb' 4 4 = 0#4 ∧ x.extractLsb' 8 8 = s.ecode ∧ x.extractLsb' 16 48 = 0#48) ∧
    (s.turns = hostR 0x020 :: rest → step s = .next { s with turns := rest, rsp := some s.cmdcnt })

/-- While nothing is pending CTR, S registers, V limbs and BUF words read their values, BUF little-endian, and the read
changes nothing of the unit (R22, R23, R30, R53, R58, R60). -/
def Obligations.HostReadsOperandState : Prop :=
  ∀ (s : State) (rest : List Turn), s.pend = none →
    (s.turns = hostR 0x028 :: rest → step s = .next { s with turns := rest, rsp := some s.ctr }) ∧
    (∀ i : SReg, s.turns = hostR (0x080 + 8 * i.val) :: rest →
      step s = .next { s with turns := rest, rsp := some s.sreg[i] }) ∧
    (∀ (i : VReg) (j : Fin 4), s.turns = hostR (0x100 + 0x20 * i.val + 8 * j.val) :: rest →
      step s = .next { s with turns := rest, rsp := some ((s.vreg[i]).extractLsb' (64 * j.val) 64) }) ∧
    (∀ k : Fin 8, s.turns = hostR (0x200 + 8 * k.val) :: rest →
      ∃ x : Limb, step s = .next { s with turns := rest, rsp := some x } ∧
        ∀ b, b < 8 → x.extractLsb' (8 * b) 8 = s.buf.read (8 * k.val + b))

/-- While a command is pending a host write to CTR, S, V or BUF is discarded and raises E_WBUSY (R38, R186, R187). -/
def Obligations.BusyOperandWrites : Prop :=
  ∀ (s : State) (rest : List Turn) (off : Nat) (v : Limb), operandOffset off → s.pend ≠ none →
    s.turns = hostW off v :: rest →
    step s = .next { s.afterAccessError 0x11#8 with turns := rest, rsp := none }

/-- While a command is pending a host read of CTR, S, V or BUF completes with some value, raises no error and changes
nothing of the unit; nothing is said of the value (R39, R187; the count of draws is the model's, log entry 3). -/
def Obligations.BusyOperandReads : Prop :=
  ∀ (s : State) (rest : List Turn) (off : Nat), operandOffset off → s.pend ≠ none →
    s.turns = hostR off :: rest →
    ∃ (x : Limb) (d : Nat), step s = .next { s with turns := rest, rsp := some x, draws := d }
end

