-- ==== Sys2Proof/Laws/Division.lean ====
section
/-! SUPPORT. What each loop of DIVS answers, in terms of the quotient of R112 that is still to come (R108, R109,
R111). -/

namespace Sys2Proof.Machine

theorem limb_lt (x j : Nat) : limb x j < 2 ^ 64 := Nat.mod_lt _ (by decide)

/-- The top limb of a value below 2^192 (R10). -/
theorem limb_two_of_lt {x : Nat} (h : x < 2 ^ 192) : limb x 2 = x / 2 ^ 128 := by
  simp only [limb, Nat.shiftRight_eq_div_pow]
  exact Nat.mod_eq_of_lt (by omega)

/-- The top limb of a value below 2^256 (R10). -/
theorem limb_three_of_lt {x : Nat} (h : x < 2 ^ 256) : limb x 3 = x / 2 ^ 192 := by
  simp only [limb, Nat.shiftRight_eq_div_pow]
  exact Nat.mod_eq_of_lt (by omega)

/-- Subtracting `ql` divisors lowers the quotient of R112 by `ql`. -/
theorem divClosed_sub {x q ql : Nat} (hq : 0 < q) (h : q * ql ≤ x) :
    divClosed x q = ql + divClosed (x - q * ql) q := by
  obtain ⟨r, rfl⟩ := Nat.exists_eq_add_of_le h
  simp only [divClosed, Nat.add_sub_cancel_left, Nat.mul_add_mod, Nat.mul_add_div hq]
  omega

/-- The divisor lies between its top limb and the next one (R111). -/
theorem divisor_bounds {q : Nat} (hq : q < 2 ^ 192) :
    limb q 2 * 2 ^ 128 ≤ q ∧ q < (limb q 2 + 1) * 2 ^ 128 := by
  rw [limb_two_of_lt hq]; omega

/-- At the exit of the main loop the correction gives the quotient of R112 (R109, R112). -/
theorem finalCorrection_spec {q x o : Nat} (hq : q < 2 ^ 192) (hx : x < 2 ^ 192)
    (hk : 1 ≤ limb q 2) (hle : limb x 2 ≤ limb q 2) (ho : o < 2 ^ 64) :
    finalCorrection q x o =
      if o + divClosed x q < 2 ^ 64 then .ok (o + divClosed x q) else .error .divRng := by
  obtain ⟨hlo, hhi⟩ := divisor_bounds hq
  have hx2 := limb_two_of_lt hx
  unfold finalCorrection
  by_cases heq : limb x 2 = limb q 2
  · have hc : divClosed x q = 1 := by
      have hxlo : limb q 2 * 2 ^ 128 ≤ x := by omega
      unfold divClosed
      by_cases hxq : x < q
      · rw [Nat.div_eq_of_lt hxq, Nat.mod_eq_of_lt hxq, if_pos hxlo]
      · have h1 : x = q * 1 + (x - q) := by omega
        have h2 : x - q < q := by omega
        have hd : x / q = 1 := by
          rw [h1, Nat.mul_add_div (by omega), Nat.div_eq_of_lt h2]
        have hm : x % q = x - q := by
          conv_lhs => rw [h1]
          rw [Nat.mul_add_mod, Nat.mod_eq_of_lt h2]
        rw [hd, hm, if_neg (by omega)]
    simp [heq, hc, quotientInRange]
  · have hc : divClosed x q = 0 := by
      have hxhi : x < limb q 2 * 2 ^ 128 := by omega
      have hxq : x < q := by omega
      unfold divClosed
      rw [Nat.div_eq_of_lt hxq, Nat.mod_eq_of_lt hxq, if_neg (by omega)]
    rw [if_neg heq, hc, Nat.add_zero, if_pos ho]

/-- The step of the main loop never makes the dividend negative (R111). -/
theorem main_step_le {q x : Nat} (hq : q < 2 ^ 192) (hx : x < 2 ^ 192) :
    q * (limb x 2 / (limb q 2 + 1)) ≤ x := by
  have hhi : q ≤ (limb q 2 + 1) * 2 ^ 128 := (divisor_bounds hq).2.le
  have h1 : (limb q 2 + 1) * (limb x 2 / (limb q 2 + 1)) ≤ limb x 2 := Nat.mul_div_le _ _
  have h2 : limb x 2 * 2 ^ 128 ≤ x := by rw [limb_two_of_lt hx]; omega
  calc q * (limb x 2 / (limb q 2 + 1))
      ≤ (limb q 2 + 1) * 2 ^ 128 * (limb x 2 / (limb q 2 + 1)) := Nat.mul_le_mul hhi le_rfl
    _ = (limb q 2 + 1) * (limb x 2 / (limb q 2 + 1)) * 2 ^ 128 := by ring
    _ ≤ limb x 2 * 2 ^ 128 := Nat.mul_le_mul_right _ h1
    _ ≤ x := h2

/-- The main loop adds the quotient of R112, or raises E_DIVRNG where it passes 64 bits (R109, R110). -/
theorem mainLoop_spec {q : Nat} (hq : q < 2 ^ 192) (hk : 1 ≤ limb q 2) :
    ∀ n x o : Nat, x ≤ n → x < 2 ^ 192 → o < 2 ^ 64 →
      mainLoop q n x o =
        if o + divClosed x q < 2 ^ 64 then .ok (o + divClosed x q) else .error .divRng := by
  intro n
  induction n with
  | zero =>
    intro x o hn hx ho
    obtain rfl : x = 0 := by omega
    exact finalCorrection_spec hq hx hk (by simp [limb]) ho
  | succ n ih =>
    intro x o hn hx ho
    obtain ⟨hlo, _⟩ := divisor_bounds hq
    unfold mainLoop
    by_cases hgt : limb x 2 > limb q 2
    · simp only [hgt, if_true]
      have hle := main_step_le (x := x) hq hx
      have hql : 1 ≤ limb x 2 / (limb q 2 + 1) := Nat.div_pos hgt (by omega)
      generalize limb x 2 / (limb q 2 + 1) = ql at hle hql
      have hqq : q ≤ q * ql := Nat.le_mul_of_pos_right q hql
      have hc := divClosed_sub (x := x) (q := q) (ql := ql) (by omega) hle
      by_cases hr : o + ql < 2 ^ 64
      · simp only [quotientInRange, hr, decide_true, if_true]
        rw [ih (x - q * ql) (o + ql) (by omega) (by omega) hr, hc, Nat.add_assoc]
      · have : ¬o + divClosed x q < 2 ^ 64 := by omega
        simp only [quotientInRange, hr, decide_false, this, if_false, Bool.false_eq_true]
    · simp only [hgt, if_false]
      exact finalCorrection_spec hq hx hk (by omega) ho

/-- The step of the preliminary loop never makes the dividend negative (R108, R111). -/
theorem prelim_step_le {q x : Nat} (hq : q < 2 ^ 192) (hx : x < 2 ^ 256) :
    q * (limb x 3 * ((2 ^ 64 - 1) / (limb q 2 + 1))) ≤ x := by
  have hhi : q ≤ (limb q 2 + 1) * 2 ^ 128 := (divisor_bounds hq).2.le
  have h1 : (limb q 2 + 1) * ((2 ^ 64 - 1) / (limb q 2 + 1)) ≤ 2 ^ 64 - 1 := Nat.mul_div_le _ _
  have h2 : limb x 3 * 2 ^ 192 ≤ x := by rw [limb_three_of_lt hx]; omega
  generalize (2 ^ 64 - 1) / (limb q 2 + 1) = d at h1
  calc q * (limb x 3 * d)
      ≤ (limb q 2 + 1) * 2 ^ 128 * (limb x 3 * d) := Nat.mul_le_mul hhi le_rfl
    _ = (limb q 2 + 1) * d * (2 ^ 128 * limb x 3) := by ring
    _ ≤ 2 ^ 64 * (2 ^ 128 * limb x 3) := Nat.mul_le_mul_right _ (by omega)
    _ = limb x 3 * 2 ^ 192 := by ring
    _ ≤ x := h2

/-- The preliminary loop drives the top limb to zero and keeps the quotient still to come, or raises E_DIVRNG where
that quotient passes 64 bits (R108, R110). -/
theorem widePrelim_spec {q : Nat} (hq : q < 2 ^ 192) (hk : 1 ≤ limb q 2) (hk' : limb q 2 < 2 ^ 64 - 1) :
    ∀ n x o : Nat, x ≤ n → x < 2 ^ 256 → o < 2 ^ 64 →
      (∃ x' o', widePrelim q n x o = .ok (x', o') ∧ x' < 2 ^ 192 ∧ o' < 2 ^ 64 ∧
          o' + divClosed x' q = o + divClosed x q) ∨
        (widePrelim q n x o = .error .divRng ∧ 2 ^ 64 ≤ o + divClosed x q) := by
  intro n
  induction n with
  | zero =>
    intro x o hn hx ho
    obtain rfl : x = 0 := by omega
    exact .inl ⟨0, o, rfl, by decide, ho, rfl⟩
  | succ n ih =>
    intro x o hn hx ho
    obtain ⟨hlo, _⟩ := divisor_bounds hq
    unfold widePrelim
    by_cases hgt : limb x 3 > 0
    · simp only [hgt, if_true]
      have hle := prelim_step_le (x := x) hq hx
      have hd : 1 ≤ (2 ^ 64 - 1) / (limb q 2 + 1) := Nat.div_pos (by omega) (by omega)
      have hql : 1 ≤ limb x 3 * ((2 ^ 64 - 1) / (limb q 2 + 1)) := Nat.mul_pos hgt hd
      generalize limb x 3 * ((2 ^ 64 - 1) / (limb q 2 + 1)) = ql at hle hql
      have hqq : q ≤ q * ql := Nat.le_mul_of_pos_right q hql
      have hc := divClosed_sub (x := x) (q := q) (ql := ql) (by omega) hle
      by_cases hbig : ql ≥ 2 ^ 64
      · exact .inr ⟨by simp only [if_pos hbig], by omega⟩
      · by_cases hr : o + ql < 2 ^ 64
        · simp only [hbig, if_false, quotientInRange, hr, decide_true, if_true]
          rw [hc, ← Nat.add_assoc]
          exact ih (x - q * ql) (o + ql) (by omega) (by omega) hr
        · exact .inr ⟨by simp only [hbig, if_false, quotientInRange, hr, decide_false, Bool.false_eq_true], by omega⟩
    · simp only [hgt, if_false]
      have h3 := limb_three_of_lt hx
      exact .inl ⟨x, o, rfl, by omega, ho, rfl⟩

end Sys2Proof.Machine
end

