-- ==== Sys2Proof/Laws/Memory.lean ====
section
/-! SUPPORT. BUF: what each operation makes every byte read as, and that each keeps the canonical form. -/

namespace Sys2Proof.Machine

theorem Memory.read_insertCell (c : Host.Cell) (m : Memory) (x : Nat) (h : ∀ d ∈ m, d.1 ≠ c.1) :
    (m.insertCell c).read x = if x = c.1 then c.2 else m.read x := by
  induction m with
  | nil => simp [insertCell, read, eq_comm]
  | cons d m ih =>
    have hd : d.1 ≠ c.1 := h d (by simp)
    have ih' := ih fun e he => h e (by simp [he])
    simp only [insertCell]
    split
    · simp [read, eq_comm]
    · simp only [read, ih']
      by_cases hx : d.1 = x
      · subst hx; simp [hd]
      · simp [hx]

theorem Memory.read_filter_ne (m : Memory) (a x : Nat) :
    Memory.read (m.filter fun c => c.1 != a) x = if x = a then 0#8 else m.read x := by
  induction m with
  | nil => simp [read]
  | cons d m ih =>
    by_cases hd : d.1 = a
    · simp only [hd, bne_self_eq_false, Bool.false_eq_true, not_false_eq_true, List.filter_cons_of_neg, ih, read]
      by_cases hx : x = a
      · simp [hx]
      · simp [hx, Ne.symm hx]
    · have : (d.1 != a) = true := by simpa using hd
      simp only [List.filter_cons_of_pos (p := fun c : Host.Cell => c.1 != a) this, read, ih]
      by_cases hx : d.1 = x
      · subst hx; simp [hd]
      · simp [hx]

/-- A byte write changes exactly the byte it names. -/
theorem Memory.read_write (m : Memory) (a x : Nat) (b : Byte) :
    (m.write a b).read x = if x = a then b else m.read x := by
  unfold write
  by_cases hb : b = 0#8
  · simp [hb, read_filter_ne]
  · simp only [hb, if_false]
    rw [read_insertCell _ _ _ (by simp), read_filter_ne]
    by_cases hx : x = a <;> simp [hx]

theorem Memory.mem_insertCell (c d : Host.Cell) (m : Memory) : d ∈ m.insertCell c ↔ d = c ∨ d ∈ m := by
  induction m with
  | nil => simp [insertCell]
  | cons e m ih =>
    simp only [insertCell]
    split
    · simp
    · simp [ih, or_left_comm]

theorem Memory.insertCell_pairwise (c : Host.Cell) (m : Memory)
    (hm : m.Pairwise fun x y => x.1 < y.1) (h : ∀ d ∈ m, d.1 ≠ c.1) :
    (m.insertCell c).Pairwise fun x y => x.1 < y.1 := by
  induction m with
  | nil => simp [insertCell]
  | cons d m ih =>
    rw [List.pairwise_cons] at hm
    simp only [insertCell]
    split
    · next hlt =>
      refine List.pairwise_cons.mpr ⟨fun y hy => ?_, List.pairwise_cons.mpr hm⟩
      rcases List.mem_cons.mp hy with rfl | hy
      · exact hlt
      · exact lt_trans hlt (hm.1 y hy)
    · next hge =>
      refine List.pairwise_cons.mpr ⟨fun y hy => ?_, ih hm.2 fun e he => h e (by simp [he])⟩
      rcases (mem_insertCell c y m).mp hy with rfl | hy
      · have := h d (by simp); omega
      · exact hm.1 y hy

/-- A byte write inside BUF keeps the canonical form. -/
theorem Memory.write_wf (m : Memory) (a : Nat) (b : Byte) (ha : a < Config.bufSize) (hm : m.wf) :
    (m.write a b).wf := by
  have hp : (m.filter fun c => c.1 != a).Pairwise fun x y : Host.Cell => x.1 < y.1 := hm.1.filter _
  have hc : ∀ c ∈ m.filter fun c => c.1 != a, c.1 < Config.bufSize ∧ c.2 ≠ 0#8 :=
    fun c hc => hm.2 c (List.mem_of_mem_filter hc)
  unfold write
  by_cases hb : b = 0#8
  · simp only [hb, if_true]; exact ⟨hp, hc⟩
  · simp only [hb, if_false]
    refine ⟨insertCell_pairwise _ _ hp (by simp), fun c h => ?_⟩
    rcases (mem_insertCell _ _ _).mp h with rfl | h
    · exact ⟨ha, hb⟩
    · exact hc c h

/-- Writing `n` bytes changes exactly those bytes. -/
theorem Memory.read_writeBytes (m : Memory) (a n x : Nat) (f : Nat → Byte) :
    (m.writeBytes a f n).read x = if a ≤ x ∧ x < a + n then f (x - a) else m.read x := by
  induction n with
  | zero => simp [writeBytes]
  | succ n ih =>
    simp only [writeBytes, read_write, ih]
    by_cases hx : x = a + n
    · subst hx; simp
    · have : (a ≤ x ∧ x < a + (n + 1)) ↔ (a ≤ x ∧ x < a + n) := by omega
      simp [hx, this]

/-- Writing bytes inside BUF keeps the canonical form. -/
theorem Memory.writeBytes_wf (m : Memory) (a n : Nat) (f : Nat → Byte) (h : a + n ≤ Config.bufSize)
    (hm : m.wf) : (m.writeBytes a f n).wf := by
  induction n with
  | zero => exact hm
  | succ n ih => exact write_wf _ _ _ (by omega) (ih (by omega))

/-- `BufWriteLE` inside BUF keeps the canonical form. -/
theorem Memory.writeLE_wf (m : Memory) (a n v : Nat) (h : a + n ≤ Config.bufSize) (hm : m.wf) :
    (m.writeLE a n v).wf := writeBytes_wf _ _ _ _ h hm

/-- `BufWriteBE` inside BUF keeps the canonical form. -/
theorem Memory.writeBE_wf (m : Memory) (a n v : Nat) (h : a + n ≤ Config.bufSize) (hm : m.wf) :
    (m.writeBE a n v).wf := writeBytes_wf _ _ _ _ h hm

/-- BUF after reset is canonical. -/
theorem State.reset_buf_wf : State.reset.buf.wf := by decide

/-- The sum of R13 is a sum over a range. -/
theorem sumBelow_eq_sum (f : Nat → Nat) (n : Nat) : sumBelow f n = ∑ i ∈ Finset.range n, f i := by
  induction n with
  | zero => rfl
  | succ n ih => rw [sumBelow, ih, Finset.sum_range_succ]

end Sys2Proof.Machine
end

