-- ==== Sys2Proof/Laws/State.lean ====
section
/-! SUPPORT. What each state update does to each field: one lemma per field per update, true by definition. -/

namespace Sys2Proof.Machine

variable (s : State)

/-! ### setV -/

@[simp] theorem State.setV_vreg (i : VReg) (v : Nat) : (s.setV i v).vreg = s.vreg.set i (BitVec.ofNat 256 v) := rfl
@[simp] theorem State.setV_sreg (i : VReg) (v : Nat) : (s.setV i v).sreg = s.sreg := rfl
@[simp] theorem State.setV_ctr (i : VReg) (v : Nat) : (s.setV i v).ctr = s.ctr := rfl
@[simp] theorem State.setV_buf (i : VReg) (v : Nat) : (s.setV i v).buf = s.buf := rfl
@[simp] theorem State.setV_irqEn (i : VReg) (v : Nat) : (s.setV i v).irqEn = s.irqEn := rfl
@[simp] theorem State.setV_done (i : VReg) (v : Nat) : (s.setV i v).done = s.done := rfl
@[simp] theorem State.setV_err (i : VReg) (v : Nat) : (s.setV i v).err = s.err := rfl
@[simp] theorem State.setV_chk (i : VReg) (v : Nat) : (s.setV i v).chk = s.chk := rfl
@[simp] theorem State.setV_ecode (i : VReg) (v : Nat) : (s.setV i v).ecode = s.ecode := rfl
@[simp] theorem State.setV_cmdcnt (i : VReg) (v : Nat) : (s.setV i v).cmdcnt = s.cmdcnt := rfl
@[simp] theorem State.setV_pend (i : VReg) (v : Nat) : (s.setV i v).pend = s.pend := rfl
@[simp] theorem State.setV_turns (i : VReg) (v : Nat) : (s.setV i v).turns = s.turns := rfl
@[simp] theorem State.setV_rsp (i : VReg) (v : Nat) : (s.setV i v).rsp = s.rsp := rfl
@[simp] theorem State.setV_draws (i : VReg) (v : Nat) : (s.setV i v).draws = s.draws := rfl

/-! ### setS -/

@[simp] theorem State.setS_vreg (i : SReg) (v : Nat) : (s.setS i v).vreg = s.vreg := rfl
@[simp] theorem State.setS_sreg (i : SReg) (v : Nat) : (s.setS i v).sreg = s.sreg.set i (BitVec.ofNat 64 v) := rfl
@[simp] theorem State.setS_ctr (i : SReg) (v : Nat) : (s.setS i v).ctr = s.ctr := rfl
@[simp] theorem State.setS_buf (i : SReg) (v : Nat) : (s.setS i v).buf = s.buf := rfl
@[simp] theorem State.setS_irqEn (i : SReg) (v : Nat) : (s.setS i v).irqEn = s.irqEn := rfl
@[simp] theorem State.setS_done (i : SReg) (v : Nat) : (s.setS i v).done = s.done := rfl
@[simp] theorem State.setS_err (i : SReg) (v : Nat) : (s.setS i v).err = s.err := rfl
@[simp] theorem State.setS_chk (i : SReg) (v : Nat) : (s.setS i v).chk = s.chk := rfl
@[simp] theorem State.setS_ecode (i : SReg) (v : Nat) : (s.setS i v).ecode = s.ecode := rfl
@[simp] theorem State.setS_cmdcnt (i : SReg) (v : Nat) : (s.setS i v).cmdcnt = s.cmdcnt := rfl
@[simp] theorem State.setS_pend (i : SReg) (v : Nat) : (s.setS i v).pend = s.pend := rfl
@[simp] theorem State.setS_turns (i : SReg) (v : Nat) : (s.setS i v).turns = s.turns := rfl
@[simp] theorem State.setS_rsp (i : SReg) (v : Nat) : (s.setS i v).rsp = s.rsp := rfl
@[simp] theorem State.setS_draws (i : SReg) (v : Nat) : (s.setS i v).draws = s.draws := rfl

/-! ### setCtr -/

@[simp] theorem State.setCtr_vreg (v : Nat) : (s.setCtr v).vreg = s.vreg := rfl
@[simp] theorem State.setCtr_sreg (v : Nat) : (s.setCtr v).sreg = s.sreg := rfl
@[simp] theorem State.setCtr_ctr (v : Nat) : (s.setCtr v).ctr = BitVec.ofNat 64 v := rfl
@[simp] theorem State.setCtr_buf (v : Nat) : (s.setCtr v).buf = s.buf := rfl
@[simp] theorem State.setCtr_irqEn (v : Nat) : (s.setCtr v).irqEn = s.irqEn := rfl
@[simp] theorem State.setCtr_done (v : Nat) : (s.setCtr v).done = s.done := rfl
@[simp] theorem State.setCtr_err (v : Nat) : (s.setCtr v).err = s.err := rfl
@[simp] theorem State.setCtr_chk (v : Nat) : (s.setCtr v).chk = s.chk := rfl
@[simp] theorem State.setCtr_ecode (v : Nat) : (s.setCtr v).ecode = s.ecode := rfl
@[simp] theorem State.setCtr_cmdcnt (v : Nat) : (s.setCtr v).cmdcnt = s.cmdcnt := rfl
@[simp] theorem State.setCtr_pend (v : Nat) : (s.setCtr v).pend = s.pend := rfl
@[simp] theorem State.setCtr_turns (v : Nat) : (s.setCtr v).turns = s.turns := rfl
@[simp] theorem State.setCtr_rsp (v : Nat) : (s.setCtr v).rsp = s.rsp := rfl
@[simp] theorem State.setCtr_draws (v : Nat) : (s.setCtr v).draws = s.draws := rfl

/-! ### setBuf -/

@[simp] theorem State.setBuf_vreg (m : Memory) : (s.setBuf m).vreg = s.vreg := rfl
@[simp] theorem State.setBuf_sreg (m : Memory) : (s.setBuf m).sreg = s.sreg := rfl
@[simp] theorem State.setBuf_ctr (m : Memory) : (s.setBuf m).ctr = s.ctr := rfl
@[simp] theorem State.setBuf_buf (m : Memory) : (s.setBuf m).buf = m := rfl
@[simp] theorem State.setBuf_irqEn (m : Memory) : (s.setBuf m).irqEn = s.irqEn := rfl
@[simp] theorem State.setBuf_done (m : Memory) : (s.setBuf m).done = s.done := rfl
@[simp] theorem State.setBuf_err (m : Memory) : (s.setBuf m).err = s.err := rfl
@[simp] theorem State.setBuf_chk (m : Memory) : (s.setBuf m).chk = s.chk := rfl
@[simp] theorem State.setBuf_ecode (m : Memory) : (s.setBuf m).ecode = s.ecode := rfl
@[simp] theorem State.setBuf_cmdcnt (m : Memory) : (s.setBuf m).cmdcnt = s.cmdcnt := rfl
@[simp] theorem State.setBuf_pend (m : Memory) : (s.setBuf m).pend = s.pend := rfl
@[simp] theorem State.setBuf_turns (m : Memory) : (s.setBuf m).turns = s.turns := rfl
@[simp] theorem State.setBuf_rsp (m : Memory) : (s.setBuf m).rsp = s.rsp := rfl
@[simp] theorem State.setBuf_draws (m : Memory) : (s.setBuf m).draws = s.draws := rfl

/-! ### setChk -/

@[simp] theorem State.setChk_vreg (b : Bool) : (s.setChk b).vreg = s.vreg := rfl
@[simp] theorem State.setChk_sreg (b : Bool) : (s.setChk b).sreg = s.sreg := rfl
@[simp] theorem State.setChk_ctr (b : Bool) : (s.setChk b).ctr = s.ctr := rfl
@[simp] theorem State.setChk_buf (b : Bool) : (s.setChk b).buf = s.buf := rfl
@[simp] theorem State.setChk_irqEn (b : Bool) : (s.setChk b).irqEn = s.irqEn := rfl
@[simp] theorem State.setChk_done (b : Bool) : (s.setChk b).done = s.done := rfl
@[simp] theorem State.setChk_err (b : Bool) : (s.setChk b).err = s.err := rfl
@[simp] theorem State.setChk_chk (b : Bool) : (s.setChk b).chk = b := rfl
@[simp] theorem State.setChk_ecode (b : Bool) : (s.setChk b).ecode = s.ecode := rfl
@[simp] theorem State.setChk_cmdcnt (b : Bool) : (s.setChk b).cmdcnt = s.cmdcnt := rfl
@[simp] theorem State.setChk_pend (b : Bool) : (s.setChk b).pend = s.pend := rfl
@[simp] theorem State.setChk_turns (b : Bool) : (s.setChk b).turns = s.turns := rfl
@[simp] theorem State.setChk_rsp (b : Bool) : (s.setChk b).rsp = s.rsp := rfl
@[simp] theorem State.setChk_draws (b : Bool) : (s.setChk b).draws = s.draws := rfl

/-! ### recordError -/

@[simp] theorem State.recordError_vreg (e : ErrCode) : (s.recordError e).vreg = s.vreg := rfl
@[simp] theorem State.recordError_sreg (e : ErrCode) : (s.recordError e).sreg = s.sreg := rfl
@[simp] theorem State.recordError_ctr (e : ErrCode) : (s.recordError e).ctr = s.ctr := rfl
@[simp] theorem State.recordError_buf (e : ErrCode) : (s.recordError e).buf = s.buf := rfl
@[simp] theorem State.recordError_irqEn (e : ErrCode) : (s.recordError e).irqEn = s.irqEn := rfl
@[simp] theorem State.recordError_done (e : ErrCode) : (s.recordError e).done = s.done := rfl
@[simp] theorem State.recordError_err (e : ErrCode) : (s.recordError e).err = true := rfl
@[simp] theorem State.recordError_chk (e : ErrCode) : (s.recordError e).chk = s.chk := rfl
@[simp] theorem State.recordError_ecode (e : ErrCode) : (s.recordError e).ecode = if s.err then s.ecode else e.code := rfl
@[simp] theorem State.recordError_cmdcnt (e : ErrCode) : (s.recordError e).cmdcnt = s.cmdcnt := rfl
@[simp] theorem State.recordError_pend (e : ErrCode) : (s.recordError e).pend = s.pend := rfl
@[simp] theorem State.recordError_turns (e : ErrCode) : (s.recordError e).turns = s.turns := rfl
@[simp] theorem State.recordError_rsp (e : ErrCode) : (s.recordError e).rsp = s.rsp := rfl
@[simp] theorem State.recordError_draws (e : ErrCode) : (s.recordError e).draws = s.draws := rfl

/-! ### writeStatus -/

@[simp] theorem State.writeStatus_vreg (v : Limb) : (s.writeStatus v).vreg = s.vreg := rfl
@[simp] theorem State.writeStatus_sreg (v : Limb) : (s.writeStatus v).sreg = s.sreg := rfl
@[simp] theorem State.writeStatus_ctr (v : Limb) : (s.writeStatus v).ctr = s.ctr := rfl
@[simp] theorem State.writeStatus_buf (v : Limb) : (s.writeStatus v).buf = s.buf := rfl
@[simp] theorem State.writeStatus_irqEn (v : Limb) : (s.writeStatus v).irqEn = s.irqEn := rfl
@[simp] theorem State.writeStatus_done (v : Limb) : (s.writeStatus v).done = (s.done && !v.getLsbD 1) := rfl
@[simp] theorem State.writeStatus_err (v : Limb) : (s.writeStatus v).err = (s.err && !v.getLsbD 2) := rfl
@[simp] theorem State.writeStatus_chk (v : Limb) : (s.writeStatus v).chk = s.chk := rfl
@[simp] theorem State.writeStatus_ecode (v : Limb) : (s.writeStatus v).ecode = if v.getLsbD 2 then 0#8 else s.ecode := rfl
@[simp] theorem State.writeStatus_cmdcnt (v : Limb) : (s.writeStatus v).cmdcnt = s.cmdcnt := rfl
@[simp] theorem State.writeStatus_pend (v : Limb) : (s.writeStatus v).pend = s.pend := rfl
@[simp] theorem State.writeStatus_turns (v : Limb) : (s.writeStatus v).turns = s.turns := rfl
@[simp] theorem State.writeStatus_rsp (v : Limb) : (s.writeStatus v).rsp = s.rsp := rfl
@[simp] theorem State.writeStatus_draws (v : Limb) : (s.writeStatus v).draws = s.draws := rfl

/-! ### retire -/

@[simp] theorem State.retire_vreg : s.retire.vreg = s.vreg := rfl
@[simp] theorem State.retire_sreg : s.retire.sreg = s.sreg := rfl
@[simp] theorem State.retire_ctr : s.retire.ctr = s.ctr := rfl
@[simp] theorem State.retire_buf : s.retire.buf = s.buf := rfl
@[simp] theorem State.retire_irqEn : s.retire.irqEn = s.irqEn := rfl
@[simp] theorem State.retire_done : s.retire.done = true := rfl
@[simp] theorem State.retire_err : s.retire.err = s.err := rfl
@[simp] theorem State.retire_chk : s.retire.chk = s.chk := rfl
@[simp] theorem State.retire_ecode : s.retire.ecode = s.ecode := rfl
@[simp] theorem State.retire_cmdcnt : s.retire.cmdcnt = s.cmdcnt + 1#64 := rfl
@[simp] theorem State.retire_pend : s.retire.pend = none := rfl
@[simp] theorem State.retire_turns : s.retire.turns = s.turns := rfl
@[simp] theorem State.retire_rsp : s.retire.rsp = s.rsp := rfl
@[simp] theorem State.retire_draws : s.retire.draws = s.draws := rfl

/-! ### respond -/

@[simp] theorem State.respond_vreg (v : Option Limb) : (s.respond v).vreg = s.vreg := rfl
@[simp] theorem State.respond_sreg (v : Option Limb) : (s.respond v).sreg = s.sreg := rfl
@[simp] theorem State.respond_ctr (v : Option Limb) : (s.respond v).ctr = s.ctr := rfl
@[simp] theorem State.respond_buf (v : Option Limb) : (s.respond v).buf = s.buf := rfl
@[simp] theorem State.respond_irqEn (v : Option Limb) : (s.respond v).irqEn = s.irqEn := rfl
@[simp] theorem State.respond_done (v : Option Limb) : (s.respond v).done = s.done := rfl
@[simp] theorem State.respond_err (v : Option Limb) : (s.respond v).err = s.err := rfl
@[simp] theorem State.respond_chk (v : Option Limb) : (s.respond v).chk = s.chk := rfl
@[simp] theorem State.respond_ecode (v : Option Limb) : (s.respond v).ecode = s.ecode := rfl
@[simp] theorem State.respond_cmdcnt (v : Option Limb) : (s.respond v).cmdcnt = s.cmdcnt := rfl
@[simp] theorem State.respond_pend (v : Option Limb) : (s.respond v).pend = s.pend := rfl
@[simp] theorem State.respond_turns (v : Option Limb) : (s.respond v).turns = s.turns := rfl
@[simp] theorem State.respond_rsp (v : Option Limb) : (s.respond v).rsp = v := rfl
@[simp] theorem State.respond_draws (v : Option Limb) : (s.respond v).draws = s.draws := rfl

/-! ### resetUnit -/

@[simp] theorem State.resetUnit_vreg : s.resetUnit.vreg = State.reset.vreg := rfl
@[simp] theorem State.resetUnit_sreg : s.resetUnit.sreg = State.reset.sreg := rfl
@[simp] theorem State.resetUnit_ctr : s.resetUnit.ctr = State.reset.ctr := rfl
@[simp] theorem State.resetUnit_buf : s.resetUnit.buf = State.reset.buf := rfl
@[simp] theorem State.resetUnit_irqEn : s.resetUnit.irqEn = State.reset.irqEn := rfl
@[simp] theorem State.resetUnit_done : s.resetUnit.done = State.reset.done := rfl
@[simp] theorem State.resetUnit_err : s.resetUnit.err = State.reset.err := rfl
@[simp] theorem State.resetUnit_chk : s.resetUnit.chk = State.reset.chk := rfl
@[simp] theorem State.resetUnit_ecode : s.resetUnit.ecode = State.reset.ecode := rfl
@[simp] theorem State.resetUnit_cmdcnt : s.resetUnit.cmdcnt = State.reset.cmdcnt := rfl
@[simp] theorem State.resetUnit_pend : s.resetUnit.pend = State.reset.pend := rfl
@[simp] theorem State.resetUnit_turns : s.resetUnit.turns = s.turns := rfl
@[simp] theorem State.resetUnit_rsp : s.resetUnit.rsp = State.reset.rsp := rfl
@[simp] theorem State.resetUnit_draws : s.resetUnit.draws = s.draws := rfl

/-! ### complete -/

@[simp] theorem State.complete_ok (t : State) : s.complete (.ok t) = t.retire := rfl
@[simp] theorem State.complete_error (e : ErrCode) : s.complete (.error e) = (s.recordError e).retire := rfl

end Sys2Proof.Machine
end

