-- ==== Sys2Proof/Laws/Ops.lean ====
section
/-! SUPPORT. What the shared operations and the execution of a command can do, said once. -/

namespace Sys2Proof.Machine

/-- A range check passes exactly where the range lies in BUF, and then changes nothing (R184). -/
theorem withRange_eq_ok {off n : Nat} {s t : State} : withRange off n s = .ok t ↔ off + n ≤ 64 ∧ t = s := by
  simp only [withRange, inBuf, Config.bufSize]
  by_cases h : off + n ≤ 64 <;> simp [h, eq_comm]

/-- A range check fails with E_BUF and nothing else (R184). -/
theorem withRange_eq_error {off n : Nat} {s : State} {e : ErrCode} :
    withRange off n s = .error e ↔ 64 < off + n ∧ e = .buf := by
  simp only [withRange, inBuf, Config.bufSize]
  by_cases h : off + n ≤ 64
  · simp [h, Nat.not_lt.mpr h]
  · simp [h, Nat.not_le.mp h, eq_comm]

/-- A range check inside BUF (R184). -/
theorem withRange_of_le {off n : Nat} {s : State} (h : off + n ≤ 64) : withRange off n s = .ok s :=
  withRange_eq_ok.mpr ⟨h, rfl⟩

/-- A range check past byte 63 (R184). -/
theorem withRange_of_lt {off n : Nat} {s : State} (h : 64 < off + n) : withRange off n s = .error .buf :=
  withRange_eq_error.mpr ⟨h, rfl⟩

/-- A completed command either committed its writes or recorded its error, and retired (R41, R186). -/
theorem State.complete_cases (s : State) (r : Except ErrCode State) :
    (∃ t, r = .ok t ∧ s.complete r = t.retire) ∨
      (∃ e, r = .error e ∧ s.complete r = (s.recordError e).retire) := by
  cases r with
  | ok t => exact .inl ⟨t, rfl, rfl⟩
  | error e => exact .inr ⟨e, rfl, rfl⟩

/-- Reading a V register back after a write (R11). -/
theorem State.getV_setV (s : State) (i j : VReg) (x : Nat) :
    (s.setV i x).getV j = if i = j then x % 2 ^ 256 else s.getV j := by
  simp only [getV, setV, Fin.getElem_fin, Vector.getElem_set, Fin.ext_iff]
  split <;> simp

/-- Reading an S register back after a write (R11). -/
theorem State.getS_setS (s : State) (i j : SReg) (x : Nat) :
    (s.setS i x).getS j = if i = j then x % 2 ^ 64 else s.getS j := by
  simp only [getS, setS, Fin.getElem_fin, Vector.getElem_set, Fin.ext_iff]
  split <;> simp

/-- The part of the state that no command's own writes touch: `t` agrees with `s` on it (R21, R33, R41). -/
structure SameControl (s t : State) : Prop where
  irqEn : t.irqEn = s.irqEn
  done : t.done = s.done
  err : t.err = s.err
  ecode : t.ecode = s.ecode
  cmdcnt : t.cmdcnt = s.cmdcnt
  pend : t.pend = s.pend
  turns : t.turns = s.turns
  rsp : t.rsp = s.rsp
  draws : t.draws = s.draws

/-- Every command completes; where it commits writes, none of them touches the control state (R37, R41, R186). -/
theorem exec_completes (i : Instr) (s : State) :
    ∃ r, exec i s = .next (s.complete r) ∧ ∀ t, r = .ok t → SameControl s t := by
  have same : SameControl s s := ⟨rfl, rfl, rfl, rfl, rfl, rfl, rfl, rfl, rfl⟩
  have viaRange : ∀ (off n : Nat) (f : State → State), SameControl s (f s) →
      ∀ t, (withRange off n s).map f = .ok t → SameControl s t := by
    intro off n f hf t ht
    cases hr : withRange off n s with
    | error e => simp [hr, Except.map] at ht
    | ok u =>
      obtain ⟨-, rfl⟩ := withRange_eq_ok.mp hr
      simp only [hr, Except.map, Except.ok.injEq] at ht
      exact ht ▸ hf
  have viaValue : ∀ (r : Except ErrCode Nat) (rd : SReg),
      ∀ t, r.map (s.setS rd) = .ok t → SameControl s t := by
    intro r rd t ht
    cases r with
    | error e => simp [Except.map] at ht
    | ok v =>
      simp only [Except.map, Except.ok.injEq] at ht
      exact ht ▸ ⟨rfl, rfl, rfl, rfl, rfl, rfl, rfl, rfl, rfl⟩
  cases i with
  | nop => exact ⟨_, rfl, fun t ht => by cases ht; exact same⟩
  | add => exact ⟨_, rfl, fun t ht => by cases ht; exact ⟨rfl, rfl, rfl, rfl, rfl, rfl, rfl, rfl, rfl⟩⟩
  | sub => exact ⟨_, rfl, fun t ht => by cases ht; exact ⟨rfl, rfl, rfl, rfl, rfl, rfl, rfl, rfl, rfl⟩⟩
  | scale => exact ⟨_, rfl, fun t ht => by cases ht; exact ⟨rfl, rfl, rfl, rfl, rfl, rfl, rfl, rfl, rfl⟩⟩
  | enc => exact ⟨_, rfl, fun t ht => by cases ht; exact ⟨rfl, rfl, rfl, rfl, rfl, rfl, rfl, rfl, rfl⟩⟩
  | kform => exact ⟨_, rfl, fun t ht => by cases ht; exact ⟨rfl, rfl, rfl, rfl, rfl, rfl, rfl, rfl, rfl⟩⟩
  | noise => exact ⟨_, rfl, fun t ht => by cases ht; exact ⟨rfl, rfl, rfl, rfl, rfl, rfl, rfl, rfl, rfl⟩⟩
  | divs => exact ⟨_, rfl, viaValue _ _⟩
  | pack => exact ⟨_, rfl, viaValue _ _⟩
  | unpack => exact ⟨_, rfl, viaRange _ _ _ ⟨rfl, rfl, rfl, rfl, rfl, rfl, rfl, rfl, rfl⟩⟩
  | prfmsg rs off inc =>
    refine ⟨_, rfl, viaRange _ _ _ ?_⟩
    cases inc <;> exact ⟨rfl, rfl, rfl, rfl, rfl, rfl, rfl, rfl, rfl⟩
  | ldle => exact ⟨_, rfl, viaRange _ _ _ ⟨rfl, rfl, rfl, rfl, rfl, rfl, rfl, rfl, rfl⟩⟩
  | ldbe => exact ⟨_, rfl, viaRange _ _ _ ⟨rfl, rfl, rfl, rfl, rfl, rfl, rfl, rfl, rfl⟩⟩
  | stle => exact ⟨_, rfl, viaRange _ _ _ ⟨rfl, rfl, rfl, rfl, rfl, rfl, rfl, rfl, rfl⟩⟩
  | stbe => exact ⟨_, rfl, viaRange _ _ _ ⟨rfl, rfl, rfl, rfl, rfl, rfl, rfl, rfl, rfl⟩⟩

/-! ### The window map (R51) -/

theorem windowReg_sreg (i : Fin 8) : windowReg ((BitVec.ofNat 12 (0x080 + 8 * i.val)).toNat / 8) = .sreg i := by
  revert i; decide

theorem windowReg_vlimb (i : Fin 8) (j : Fin 4) :
    windowReg ((BitVec.ofNat 12 (0x100 + 0x20 * i.val + 8 * j.val)).toNat / 8) = .vlimb i j := by
  revert i j; decide

theorem windowReg_bufWord (k : Fin 8) :
    windowReg ((BitVec.ofNat 12 (0x200 + 8 * k.val)).toNat / 8) = .bufWord k := by
  revert k; decide

end Sys2Proof.Machine
end

