-- ==== Sys2Proof/Laws/PerInstr.lean ====
section
/-! SUPPORT. Statements about every command, one lemma per constructor.

OpcodeField: the OPC field of a command's word is the opcode R80 assigns its mnemonic. -/

namespace Sys2Proof.Laws

/-- OPC of a format-R word (R74). -/
theorem fieldOPC_formatR (opc : BitVec 6) (p : BitVec 1) (rd ra rb rc : BitVec 3) :
    fieldOPC (formatR opc p rd ra rb rc) = opc := by
  simp only [fieldOPC, formatR, place]
  ext i hi
  simp
  interval_cases i <;> simp

/-- OPC of a format-M word (R75). -/
theorem fieldOPC_formatM (opc : BitVec 6) (p : BitVec 1) (rg : BitVec 3) (off : BitVec 6) (cnt : BitVec 5)
    (rs : BitVec 3) (b : BitVec 1) : fieldOPC (formatM opc p rg off cnt rs b) = opc := by
  simp only [fieldOPC, formatM, place]
  ext i hi
  simp
  interval_cases i <;> simp

/-- The opcode of a command (R80). -/
def opcodeOf : Instr → BitVec 6
  | .nop => 0x00#6
  | .add _ _ _ _ => 0x01#6
  | .sub _ _ _ _ => 0x02#6
  | .scale _ _ _ _ => 0x03#6
  | .divs _ _ _ _ => 0x04#6
  | .enc _ _ _ _ _ => 0x05#6
  | .kform _ _ _ => 0x08#6
  | .noise _ _ _ => 0x09#6
  | .pack _ _ _ _ => 0x0A#6
  | .unpack _ _ _ _ => 0x0B#6
  | .prfmsg _ _ _ => 0x0C#6
  | .ldle _ _ _ => 0x10#6
  | .ldbe _ _ _ => 0x11#6
  | .stle _ _ _ => 0x12#6
  | .stbe _ _ _ => 0x13#6

/-- The OPC field of the command's word is its opcode (R71, R80). -/
def OpcodeField.Statement (i : Instr) : Prop := fieldOPC (encode i) = opcodeOf i

theorem OpcodeField.nop : OpcodeField.Statement .nop := by unfold OpcodeField.Statement; decide
theorem OpcodeField.add (p : Profile) (rd ra rb : VReg) :
    OpcodeField.Statement (.add p rd ra rb) := fieldOPC_formatR _ _ _ _ _ _
theorem OpcodeField.sub (p : Profile) (rd ra rb : VReg) :
    OpcodeField.Statement (.sub p rd ra rb) := fieldOPC_formatR _ _ _ _ _ _
theorem OpcodeField.scale (p : Profile) (rd ra : VReg) (rb : SReg) :
    OpcodeField.Statement (.scale p rd ra rb) := fieldOPC_formatR _ _ _ _ _ _
theorem OpcodeField.divs (p : Profile) (rd : SReg) (ra rb : VReg) :
    OpcodeField.Statement (.divs p rd ra rb) := fieldOPC_formatR _ _ _ _ _ _
theorem OpcodeField.enc (p : Profile) (rd ra : VReg) (rb : SReg) (rc : VReg) :
    OpcodeField.Statement (.enc p rd ra rb rc) := fieldOPC_formatR _ _ _ _ _ _
theorem OpcodeField.kform (p : Profile) (rd ra : VReg) :
    OpcodeField.Statement (.kform p rd ra) := fieldOPC_formatR _ _ _ _ _ _
theorem OpcodeField.noise (p : Profile) (rd ra : VReg) :
    OpcodeField.Statement (.noise p rd ra) := fieldOPC_formatR _ _ _ _ _ _
theorem OpcodeField.pack (p : Profile) (rg : SReg) (off len : Nat) :
    OpcodeField.Statement (.pack p rg off len) := fieldOPC_formatM _ _ _ _ _ _ _
theorem OpcodeField.unpack (p : Profile) (rg rs : SReg) (off : Nat) :
    OpcodeField.Statement (.unpack p rg rs off) := fieldOPC_formatM _ _ _ _ _ _ _
theorem OpcodeField.prfmsg (rs : SReg) (off : Nat) (inc : Bool) :
    OpcodeField.Statement (.prfmsg rs off inc) := fieldOPC_formatM _ _ _ _ _ _ _
theorem OpcodeField.ldle (rg : VReg) (off n : Nat) :
    OpcodeField.Statement (.ldle rg off n) := fieldOPC_formatM _ _ _ _ _ _ _
theorem OpcodeField.ldbe (rg : VReg) (off n : Nat) :
    OpcodeField.Statement (.ldbe rg off n) := fieldOPC_formatM _ _ _ _ _ _ _
theorem OpcodeField.stle (rg : VReg) (off n : Nat) :
    OpcodeField.Statement (.stle rg off n) := fieldOPC_formatM _ _ _ _ _ _ _
theorem OpcodeField.stbe (rg : VReg) (off n : Nat) :
    OpcodeField.Statement (.stbe rg off n) := fieldOPC_formatM _ _ _ _ _ _ _

end Sys2Proof.Laws
end

