-- ==== Sys2Proof/Laws/Window.lean ====
section
/-! SUPPORT. One turn of the machine and one host access: what each can do, said once. -/

namespace Sys2Proof.Machine

/-! ### Turns -/

/-- With a turn scheduled, the step takes it off the schedule and runs it (log entry 1). -/
theorem step_of_turn {s : State} {t : Turn} {ts : List Turn} (h : s.turns = t :: ts) :
    step s = takeTurn t { s with turns := ts } := by
  simp [step, nextStep, h]

/-- A scheduled host write of 8 bytes at a multiple of 8 writes the register its offset names (R40, R52). -/
theorem step_of_hostW {s : State} {off : Nat} {v : Limb} {rest : List Turn} (h : s.turns = hostW off v :: rest)
    (h8 : (BitVec.ofNat 12 off).toNat % 8 = 0) :
    step s = .next ((({ s with turns := rest } : State).hostWrite
      (windowReg ((BitVec.ofNat 12 off).toNat / 8)) v).respond none) := by
  have : (⟨BitVec.ofNat 12 off, .bytes8, .write v⟩ : HostReq).admissible = true := by
    rw [HostReq.admissible, decide_eq_true h8]; rfl
  rw [step_of_turn h]
  simp only [hostW, takeTurn, hostAccess, this, if_true]

/-- A scheduled host read of 8 bytes at a multiple of 8 reads the register its offset names (R40, R52). -/
theorem step_of_hostR {s : State} {off : Nat} {rest : List Turn} (h : s.turns = hostR off :: rest)
    (h8 : (BitVec.ofNat 12 off).toNat % 8 = 0) :
    step s = .next (({ s with turns := rest } : State).hostRead
      (windowReg ((BitVec.ofNat 12 off).toNat / 8))) := by
  have : (⟨BitVec.ofNat 12 off, .bytes8, .read⟩ : HostReq).admissible = true := by
    rw [HostReq.admissible, decide_eq_true h8]; rfl
  rw [step_of_turn h]
  simp only [hostR, takeTurn, hostAccess, this, if_true]

/-- A host access takes no turn off the schedule. -/
theorem hostAccess_turns (r : HostReq) (s : State) : (hostAccess r s).turns = s.turns := by
  unfold hostAccess
  split
  · split
    · unfold State.hostRead; split <;> rfl
    · rfl
  · split
    · simp only [State.respond]
      generalize windowReg _ = w
      unfold State.hostWrite
      split
      · unfold State.writeCtrl; split <;> rfl
      · rfl
      · unfold State.writeCmd; split <;> rfl
      · rfl
      · rfl
      · rfl
      · split
        · rfl
        · unfold State.writeOperand; split <;> rfl
    · rfl

/-- The host's `run` takes one step and goes on from there. -/
theorem run_of_next (M : Host.Core) (n : Nat) (s t : M.State) (h : M.step s = .next t) :
    M.run (n + 1) s = M.run n t := by
  rw [Host.Core.run, h]

/-! ### Retirement -/

/-- What every completed command leaves of the control state (R37, R41). -/
theorem State.complete_control (s : State) (r : Except ErrCode State) (h : ∀ t, r = .ok t → SameControl s t) :
    (s.complete r).pend = none ∧ (s.complete r).done = true ∧ (s.complete r).cmdcnt = s.cmdcnt + 1#64 ∧
      (s.complete r).irqEn = s.irqEn ∧ (s.complete r).turns = s.turns ∧ (s.complete r).rsp = s.rsp ∧
      (s.complete r).draws = s.draws := by
  cases r with
  | ok t =>
    have := h t rfl
    exact ⟨rfl, rfl, by simp [State.complete, State.retire, this.cmdcnt], this.irqEn, this.turns, this.rsp,
      this.draws⟩
  | error e => exact ⟨rfl, rfl, rfl, rfl, rfl, rfl, rfl⟩

/-- While ERR = 1 a completed command leaves ERR and ECODE (R181). -/
theorem State.complete_of_err (s : State) (r : Except ErrCode State) (h : ∀ t, r = .ok t → SameControl s t)
    (he : s.err = true) : (s.complete r).err = true ∧ (s.complete r).ecode = s.ecode := by
  cases r with
  | ok t => have := h t rfl; exact ⟨this.err.trans he, this.ecode⟩
  | error e => simp [State.complete, State.retire, State.recordError, he]

/-- Every code of R180 is one an ECODE may hold. -/
theorem ErrCode.code_mem (e : ErrCode) : e.code ∈ errorCodes := by cases e <;> decide

/-! ### The window -/

/-- The decoder's opcode field is bits 31:26 (R71). -/
theorem toNat_fieldOPC (w : CommandWord) : (fieldOPC w).toNat = bitsOf w 31 26 := by
  simp [fieldOPC, bitsOf, Nat.shiftRight_eq_div_pow]

/-- An address below or above the window has no offset in it (R52). -/
theorem windowOffset_outside (base addr : Nat) (h : addr < base ∨ base + 4096 ≤ addr) :
    windowOffset base addr = none := by
  unfold windowOffset Config.windowBytes
  rw [if_neg (by omega)]

/-- An address inside the window has its distance from the base as its offset (R50). -/
theorem windowOffset_inside (base off : Nat) (h : off < 4096) :
    windowOffset base (base + off) = some (BitVec.ofNat 12 off) := by
  unfold windowOffset Config.windowBytes
  rw [if_pos (by omega), Nat.add_sub_cancel_left]

/-- The reserved offsets of R59. -/
theorem windowReg_reserved {off : Nat} (h : reservedOffset off) :
    windowReg ((BitVec.ofNat 12 off).toNat / 8) = .reserved := by
  obtain ⟨h8, h⟩ := h
  have : off < 4096 := by omega
  simp only [BitVec.toNat_ofNat, Nat.reducePow, Nat.mod_eq_of_lt this, windowReg]
  repeat' (first | rw [if_neg (by omega)])

/-- The offsets of CTR, S, V and BUF name operand state (R38, R51). -/
theorem windowReg_operand {off : Nat} (h : operandOffset off) :
    (windowReg ((BitVec.ofNat 12 off).toNat / 8)).isOperand = true := by
  obtain ⟨h8, h⟩ := h
  have : off < 4096 := by omega
  simp only [BitVec.toNat_ofNat, Nat.reducePow, Nat.mod_eq_of_lt this, windowReg]
  repeat' split
  all_goals first | rfl | omega

/-! ### Limbs and bytes -/

/-- A limb as a host reads it is 64 bits of the register (R10, R22). -/
theorem ofNat_limb (v : BitVec 256) (j : Nat) : BitVec.ofNat 64 (limb v.toNat j) = v.extractLsb' (64 * j) 64 := by
  apply BitVec.eq_of_toNat_eq
  simp [limb]

/-- A limb of a value put together from four limbs (R10). -/
theorem limb_ofLimbs (l : Fin 4 → Nat) (h : ∀ j, l j < 2 ^ 64) (j : Fin 4) :
    limb (ofLimbs (l 0) (l 1) (l 2) (l 3)) j = l j := by
  have h0 := h 0; have h1 := h 1; have h2 := h 2; have h3 := h 3
  fin_cases j <;> simp [limb, ofLimbs, Nat.shiftRight_eq_div_pow] <;> omega

/-- Replacing a limb changes that limb and no other (R56). -/
theorem limb_replaceLimb (x : Nat) (i j : Fin 4) (v : Nat) (hv : v < 2 ^ 64) :
    limb (replaceLimb x j v) i = if i = j then v else limb x i := by
  have := limb_ofLimbs (fun i => if j.val = i.val then v else limb x i)
    (by intro i; dsimp; split <;> [exact hv; exact Nat.mod_lt _ (by decide)]) i
  simp only [Fin.ext_iff, replaceLimb]
  simpa [eq_comm] using this

/-- The value with a limb replaced fits a V register (R10). -/
theorem replaceLimb_lt (x j v : Nat) (hv : v < 2 ^ 64) : replaceLimb x j v < 2 ^ 256 := by
  have hl : ∀ j, limb x j < 2 ^ 64 := fun j => Nat.mod_lt _ (by decide)
  have := hl 0; have := hl 1; have := hl 2; have := hl 3
  unfold replaceLimb ofLimbs
  split <;> split <;> split <;> split <;> omega

/-- Byte `b` of a little-endian sum of bytes (R13). -/
theorem sumBelow_byte (f : Nat → Byte) (n b : Nat) (hb : b < n) :
    sumBelow (fun i => (f i).toNat * 2 ^ (8 * i)) n / 2 ^ (8 * b) % 256 = (f b).toNat := by
  have lt : ∀ n, sumBelow (fun i => (f i).toNat * 2 ^ (8 * i)) n < 2 ^ (8 * n) := by
    intro n
    induction n with
    | zero => simp [sumBelow]
    | succ n ih =>
      simp only [sumBelow]
      have := (f n).isLt
      have e : 2 ^ (8 * (n + 1)) = 256 * 2 ^ (8 * n) := by
        rw [show 8 * (n + 1) = 8 * n + 8 by ring, pow_add]; ring
      nlinarith [Nat.two_pow_pos (8 * n)]
  induction n with
  | zero => omega
  | succ n ih =>
    simp only [sumBelow]
    by_cases h : b = n
    · subst h
      rw [Nat.add_mul_div_right _ _ (Nat.two_pow_pos _), Nat.div_eq_of_lt (lt b)]
      have := (f b).isLt; omega
    · have e : (f n).toNat * 2 ^ (8 * n) = (f n).toNat * 2 ^ (8 * (n - b - 1)) * 256 * 2 ^ (8 * b) := by
        rw [show 8 * n = 8 * (n - b - 1) + 8 + 8 * b by omega, pow_add, pow_add]; ring
      rw [e, Nat.add_mul_div_right _ _ (Nat.two_pow_pos _), Nat.add_mul_mod_self_right]
      exact ih (by omega)

end Sys2Proof.Machine
end

