-- ==== Sys2Proof/Tests/Slice0.lean ====
section
/-! SUPPORT. Small tests. Expected results come from the specification's worked examples and vectors (95_test_vectors.md
and the Example lines of 40, 41 and 42), each named in its comment; the words of the decode tests are written out field
by field from R74, R75 and R81. The witnesses at the end show that the hypotheses of the statements can be met. -/

namespace Sys2Proof.Tests
open Sys2Proof.Machine

/-! ### Well-formedness: what the assembler refuses (R88) -/

theorem test_wf_off_64 : (Instr.ldle 0 64 1).wellFormed = false := by decide
theorem test_wf_off_63 : (Instr.ldle 0 63 1).wellFormed = true := by decide
theorem test_wf_len_32 : (Instr.pack .wide 0 0 32).wellFormed = false := by decide
theorem test_wf_len_31 : (Instr.pack .wide 0 0 31).wellFormed = true := by decide
theorem test_wf_pack_off : (Instr.pack .narrow 0 64 0).wellFormed = false := by decide
theorem test_wf_unpack_off : (Instr.unpack .narrow 0 0 64).wellFormed = false := by decide
theorem test_wf_prfmsg_off : (Instr.prfmsg 0 64 false).wellFormed = false := by decide
theorem test_wf_count_0 : (Instr.stbe 0 0 0).wellFormed = false := by decide
theorem test_wf_count_33 : (Instr.ldbe 0 0 33).wellFormed = false := by decide
theorem test_wf_stle_off : (Instr.stle 0 64 32).wellFormed = false := by decide
theorem test_assemble_refuses : (Instr.ldle 0 0 33).assemble = none := by decide

/-! ### Decoding: OPC P RD RA RB RC ZR, or OPC P RG OFF CNT RS I ZM, written out -/

theorem test_decode_nop : decode 0b00000000000000000000000000000000#32 = .ok .nop := by rfl
-- 000001 0 001 010 011 000 0..0
theorem test_decode_add : decode 0b00000100010100110000000000000000#32 = .ok (.add .narrow 1 2 3) := by rfl
-- 000010 1 001 010 011 000 0..0
theorem test_decode_sub : decode 0b00001010010100110000000000000000#32 = .ok (.sub .wide 1 2 3) := by rfl
-- 000011 1 111 000 101 000 0..0
theorem test_decode_scale : decode 0b00001111110001010000000000000000#32 = .ok (.scale .wide 7 0 5) := by rfl
-- 000100 1 010 101 000 000 0..0
theorem test_decode_divs : decode 0b00010010101010000000000000000000#32 = .ok (.divs .wide 2 5 0) := by rfl
-- 000101 1 100 000 001 011 0..0
theorem test_decode_enc : decode 0b00010111000000010110000000000000#32 = .ok (.enc .wide 4 0 1 3) := by rfl
-- 001000 0 110 001 000 000 0..0
theorem test_decode_kform : decode 0b00100001100010000000000000000000#32 = .ok (.kform .narrow 6 1) := by rfl
-- 001001 1 011 010 000 000 0..0
theorem test_decode_noise : decode 0b00100110110100000000000000000000#32 = .ok (.noise .wide 3 2) := by rfl
-- 001010 1 001 100000 00111 000 0 0000000
theorem test_decode_pack : decode 0b00101010011000000011100000000000#32 = .ok (.pack .wide 1 32 7) := by rfl
-- 001011 1 011 101000 00000 010 0 0000000
theorem test_decode_unpack : decode 0b00101110111010000000001000000000#32 = .ok (.unpack .wide 3 2 40) := by rfl
-- 001100 0 000 110000 00000 001 1 0000000
theorem test_decode_prfmsg : decode 0b00110000001100000000000110000000#32 = .ok (.prfmsg 1 48 true) := by rfl
-- 010000 0 000 000000 10111 000 0 0000000
theorem test_decode_ldle : decode 0b01000000000000001011100000000000#32 = .ok (.ldle 0 0 24) := by rfl
-- 010001 0 001 101000 10111 000 0 0000000
theorem test_decode_ldbe : decode 0b01000100011010001011100000000000#32 = .ok (.ldbe 1 40 24) := by rfl
-- 010010 0 001 111111 00000 000 0 0000000
theorem test_decode_stle : decode 0b01001000011111110000000000000000#32 = .ok (.stle 1 63 1) := by rfl
-- 010011 0 100 000000 11100 000 0 0000000
theorem test_decode_stbe : decode 0b01001101000000001110000000000000#32 = .ok (.stbe 4 0 29) := by rfl

/-- A9: RC = 4 in ADD. -/
theorem test_decode_add_rc : decode 0x04538000#32 = .error .reservedField := by rfl
/-- L17: P = 1 in LDLE. -/
theorem test_decode_ldle_p : decode 0x42400000#32 = .error .reservedField := by rfl
/-- Z3: P = 1 in NOP. -/
theorem test_decode_nop_p : decode 0x02000000#32 = .error .reservedField := by rfl
/-- Z4 and Z8: reserved opcodes. -/
theorem test_decode_reserved :
    decode 0x18000000#32 = .error .reservedOpcode ∧ decode 0xFC000000#32 = .error .reservedOpcode := ⟨rfl, rfl⟩
theorem test_table_word : decodeTableWord 32 0x04530000 = some (.add .narrow 1 2 3) := by rfl

/-- R90's spelling of two of its words, and R89's narrow block load. -/
theorem test_asm : (Instr.enc .wide 4 0 1 3).asm = "enc.w v4, v0, s1, v3" ∧
    (Instr.prfmsg 1 0 true).asm = "prfmsg.i s1, 0" ∧ (Pseudo.ldct .narrow 5 0).expand = .ldbe 5 0 24 := by
  decide

/-! ### One command from reset with the named inputs -/

/-- The state a word leaves when it runs as the next command. -/
def runWord (s : State) (w : Nat) : Option State :=
  match step (s.withFetchWord 32 w) with
  | .next t => some t
  | _ => none

/-- BUF[i] = i for i < 32, as the loads' vectors have it. -/
def countingBuf : Memory := Memory.writeBytes [] 0 (fun i => BitVec.ofNat 8 i) 32

/-- V1 = 0x202122…3F of the stores' vectors. -/
def storeValue : Nat := 0x202122232425262728292A2B2C2D2E2F303132333435363738393A3B3C3D3E3F

/-- A1 and A3. -/
theorem test_add_wraps : (runWord ((State.reset.setV 2 (2 ^ 192 - 1)).setV 3 1) 0x04530000).map (·.vreg[1]) = some 0 := by
  decide
theorem test_add_narrow_ignores_l3 :
    (runWord ((State.reset.setV 2 (2 ^ 200 + 5)).setV 3 7) 0x04530000).map (·.vreg[1]) = some 0xC := by decide
/-- U1 and U2. -/
theorem test_sub_narrow : (runWord (State.reset.setV 3 1) 0x08530000).map (·.getV 1) = some (2 ^ 192 - 1) := by decide
theorem test_sub_wide : (runWord (State.reset.setV 3 1) 0x0A530000).map (·.getV 1) = some (2 ^ 256 - 1) := by decide
/-- X2. -/
theorem test_scale : (runWord ((State.reset.setV 2 (2 ^ 256 - 1)).setS 3 (2 ^ 64 - 1)) 0x0E530000).map (·.getV 1) =
    some (2 ^ 256 - 2 ^ 64 + 1) := by decide
/-- D1 and D12. -/
theorem test_divs_correction :
    (runWord ((State.reset.setV 2 (5 * 2 ^ 128 + 50)).setV 3 (5 * 2 ^ 128 + 100)) 0x10530000).map (·.getS 1) = some 1 := by
  decide
theorem test_divs_range :
    (runWord ((State.reset.setV 2 (2 ^ 200 + 3 * 2 ^ 128)).setV 3 (3 * 2 ^ 128)) 0x12530000).map (·.statusWord) =
      some 0x606#64 := by decide
/-- The Example of R106, which needs both loops to be right. -/
theorem test_divs_block :
    (runWord ((State.reset.setV 5 0x863E4A7BC4AC2425DBD21AC2DC17B9DBFE20426486A9470844BAA3E0A0).setV 0
      0x117161514130F0E0D0C0B0A09080706050403020100) 0x12A80000).map (·.getS 2) = some 0x7B237B397353833F := by
  decide +kernel
/-- E5: the destination is also K and r. -/
theorem test_enc_alias : (runWord ((State.reset.setV 2 10).setS 2 3) 0x16924000).map (·.getV 2) = some 40 := by decide
/-- E1: the wrap of conflict C1. -/
theorem test_enc_wraps :
    (runWord (((State.reset.setV 2 (2 ^ 168)).setV 4 (2 ^ 127)).setS 3 (2 ^ 51 - 1)) 0x14538000).map (·.getV 1) =
      some 0xFFFFFF000000000080000000000000000000000000000000 := by decide
/-- K1 and K6. -/
theorem test_kform_narrow :
    (runWord (State.reset.setV 2 0x17161514131211100F0E0D0C0B0A09080706050403020100) 0x20500000).map (·.getV 1) =
      some 0x11710F0E0D0C0B0A09080706050403020100 := by decide
theorem test_kform_wide_top : (runWord (State.reset.setV 2 (2 ^ 256 - 1)) 0x22500000).map (·.getV 1) =
    some (2 ^ 169 - 1) := by decide
/-- N1 and N5: the carry of the offset goes into limb l2. -/
theorem test_noise_narrow :
    (runWord (State.reset.setV 2 0xB7B6B5B4B3B2B1B0AFAEADACABAAA9A8A7A6A5A4A3A2A1A0) 0x24500000).map (·.getV 1) =
      some 0x5C2FAEADACABAAA9A8A7A6A5A4A3A2A1A0 := by decide
theorem test_noise_wide :
    (runWord (State.reset.setV 2 0xB7B6B5B4B3B2B1B0AFAEADACABAAA9A8A7A6A5A4A3A2A1A0) 0x26500000).map (·.getV 1) =
      some 0x5BDB5ADA5A2FAEADACABAAA9A8A7A6A5A4A3A2A1A0 := by decide
/-- PK3 and PK8. -/
theorem test_pack_left_aligned :
    (runWord (State.reset.setBuf [(0, 0x61#8), (1, 0x62#8)]) 0x28401000).map (·.getS 1) = some 0x30B1000000002 := by
  decide
theorem test_pack_error_order : (runWord State.reset 0x2A7C4800).map (·.statusWord) = some 0x306#64 := by decide
/-- UP4 and UP3. -/
theorem test_unpack_bytes :
    (runWord (State.reset.setS 1 0x30B1000000002) 0x2C880100).map (fun t => (t.buf.readBE 8 6, t.getS 2, t.chk)) =
      some (0x616200000000, 2, true) := by decide
theorem test_unpack_bad_length : (runWord (State.reset.setS 1 7) 0x2C880100).map (fun t => (t.getS 2, t.chk)) =
    some (7, false) := by decide
/-- PR1 and PR3. -/
theorem test_prfmsg :
    (runWord ((State.reset.setS 1 0x0123456789ABCDEF).setCtr (2 ^ 64 - 1)) 0x30000180).map
      (fun t => (t.buf.readBE 0 16, t.ctr)) = some (0x0123456789ABCDEFFFFFFFFFFFFFFFFF, 0#64) := by decide
theorem test_prfmsg_range :
    (runWord ((State.reset.setS 1 5).setCtr 9) 0x30310180).map (fun t => (t.statusWord, t.ctr)) =
      some (0x406#64, 9#64) := by decide
/-- L3's form at offset 8, and L11's. -/
theorem test_ldle : (runWord (State.reset.setBuf countingBuf) 0x40481000).map (·.getV 1) = some 0x0A0908 := by decide
theorem test_ldbe : (runWord (State.reset.setBuf countingBuf) 0x44481000).map (·.getV 1) = some 0x08090A := by decide
/-- L5: past byte 63, V1 keeps its 7. -/
theorem test_ldle_range : (runWord (State.reset.setV 1 7) 0x407F0800).map (fun t => (t.getV 1, t.statusWord)) =
    some (7, 0x406#64) := by decide
/-- T2 and T8: two bytes, the rest of the value dropped. -/
theorem test_stle : (runWord (State.reset.setV 1 storeValue) 0x48400800).map (·.buf) =
    some [(0, 0x3F#8), (1, 0x3E#8)] := by decide
theorem test_stbe : (runWord (State.reset.setV 1 storeValue) 0x4C400800).map (·.buf) =
    some [(0, 0x3E#8), (1, 0x3F#8)] := by decide
/-- Z1 and Z4. -/
theorem test_nop : (runWord State.reset 0).map (fun t => (t.statusWord, t.cmdcnt)) = some (0x2#64, 1#64) := by decide
theorem test_reserved_opcode : (runWord State.reset 0x18000000).map (·.statusWord) = some 0x106#64 := by decide

/-! ### The host window: steps of program 4 -/

/-- The state a schedule of turns leaves, taken turn by turn. -/
def runTurns (ts : List Turn) (s : State) : Option State :=
  match Host.Core.run Sys2Proof.core ts.length { s with turns := ts } with
  | .next t => some t
  | _ => none

/-- Steps 7 to 9: a CMD write and an S0 write while busy; the first error stays, the command retires once. -/
theorem test_busy_protocol :
    (runTurns [hostW 0x018 0, hostW 0x018 0, hostW 0x080 0x55, .engine, hostR 0x010] State.reset).map
      (fun t => (t.rsp, t.getS 0, t.cmdcnt)) = some (some 0x1006#64, 0, 1#64) := by decide
/-- Steps 10 and 11: a 4-byte write, then a misaligned read, which returns 0 and is not recorded. -/
theorem test_bus_error :
    (runTurns [.host ⟨0x204, .bytes4, .write 1⟩, .host ⟨0x203, .bytes8, .read⟩] State.reset).map
      (fun t => (t.statusWord, t.rsp, t.buf)) = some (0x1204#64, some 0#64, []) := by decide
/-- Steps 1 and 12: IRQ_EN, then a soft reset with bit 0 set as well. -/
theorem test_soft_reset :
    (runTurns [hostW 0x008 1, hostW 0x100 100, hostW 0x008 3, hostR 0x008] State.reset).map
      (fun t => (t.rsp, t.vreg[0])) = some (some 0#64, 0#256) := by decide
/-- Program 1's first word of BUF reads back little-endian. -/
theorem test_buf_word :
    (runTurns [hostW 0x208 0x0F0E0D0C0B0A0908, hostR 0x208] State.reset).map (fun t => (t.rsp, t.buf.read 8)) =
      some (some 0x0F0E0D0C0B0A0908#64, 0x08#8) := by decide
/-- A V limb write changes its limb only. -/
theorem test_v_limb :
    (runTurns [hostW 0x130 7] (State.reset.setV 1 (2 ^ 256 - 1))).map (·.getV 1) =
      some (2 ^ 256 - 1 - (2 ^ 64 - 8) * 2 ^ 128) := by decide

/-! ### Witnesses: states and operands that meet the statements' hypotheses, at the boundaries of their ranges -/

/-- A state with command `w` pending and the given turns. -/
def pendingState (w : CommandWord) (ts : List Turn) : State := { State.reset with pend := some w, turns := ts }

/-- A state with nothing pending and one turn scheduled. -/
def withTurn (t : Turn) : State := { State.reset with turns := [t] }

theorem test_witness_DecodeEncodeRoundTrip :
    (Instr.stbe 7 63 32).wellFormed = true ∧ (Instr.pack .wide 7 63 31).wellFormed = true ∧
      (Instr.ldle 0 0 1).wellFormed = true := by decide
theorem test_witness_EncodeDecodeRoundTrip : ∃ w i, decode w = .ok i := ⟨0x4840F800#32, .stle 1 0 32, rfl⟩
theorem test_witness_StepRunsDecodedCommand :
    (∃ (s : State) (w : CommandWord) (i : Instr), s.engineNext [] ∧ s.turns = [] ∧ s.pend = some w ∧ decode w = .ok i) ∧
      (∃ (s : State) (w : CommandWord) (i : Instr), s.engineNext [.rst] ∧ s.pend = some w ∧ decode w = .ok i) :=
  ⟨⟨pendingState 0x04530000#32 [], _, _, .inl ⟨rfl, rfl⟩, rfl, rfl, rfl⟩,
    ⟨pendingState 0x04530000#32 [.engine, .rst], _, _, .inr rfl, rfl, rfl⟩⟩
theorem test_witness_ReservedOpcodeRaisesOpc :
    (∃ (s : State) (w : CommandWord), s.engineNext [] ∧ s.pend = some w ∧ reservedOpcode (bitsOf w 31 26)) ∧
      reservedOpcode (bitsOf 0x18000000#32 31 26) ∧ reservedOpcode (bitsOf 0x50000000#32 31 26) ∧
      reservedOpcode (bitsOf 0xFFFFFFFF#32 31 26) :=
  ⟨⟨pendingState 0x1C000000#32 [], 0x1C000000#32, .inl ⟨rfl, rfl⟩, rfl, .inr (.inl (by decide))⟩, .inl (by decide),
    .inr (.inr (.inr (.inr (.inr (by decide))))), .inr (.inr (.inr (.inr (.inr (by decide)))))⟩
theorem test_witness_ReservedFieldRaisesField :
    ∃ (s : State) (w : CommandWord), ∃ r ∈ opcodeRows,
      s.engineNext [] ∧ s.pend = some w ∧ bitsOf w 31 26 = r.opc.toNat ∧ w &&& r.mask ≠ r.pattern :=
  ⟨pendingState 0x04538000#32 [], 0x04538000#32, _, List.mem_cons_of_mem _ List.mem_cons_self, .inl ⟨rfl, rfl⟩, rfl,
    by decide, by decide⟩
theorem test_witness_IdleUnitChangesNothing :
    State.reset.pend = none ∧ State.reset.turns = [] ∧ (withTurn .engine).pend = none ∧
      (withTurn .engine).turns = .engine :: [] := by decide
theorem test_witness_CommandErrorsArePrecise :
    (∃ t, exec (.ldle 0 63 2) State.reset = .next t ∧ State.reset.err = false ∧ t.err = true) ∧
      (∃ t, exec .nop State.reset = .next t ∧ t.err = false) ∧
      (∃ t, exec (.ldle 0 63 2) { State.reset with err := true, ecode := 1#8 } = .next t) :=
  ⟨⟨_, rfl, rfl, rfl⟩, ⟨_, rfl, rfl⟩, ⟨_, rfl⟩⟩
theorem test_witness_CommandsWriteOnlyWhatTheyMay :
    (∃ t, exec .nop State.reset = .next t) ∧ Instr.nop.writesV = false ∧ Instr.nop.writesS = false ∧
      Instr.nop.writesBuf = false ∧ (∀ rs off, Instr.nop ≠ .prfmsg rs off true) ∧
      (∀ p rg rs off, Instr.nop ≠ .unpack p rg rs off) :=
  ⟨⟨_, rfl⟩, rfl, rfl, rfl, fun _ _ h => Instr.noConfusion h, fun _ _ _ _ h => Instr.noConfusion h⟩
theorem test_witness_PackResult :
    (6 ≤ Profile.narrow.blockBytes ∧ 58 + 6 ≤ 64) ∧ (7 ≤ Profile.wide.blockBytes ∧ 57 + 7 ≤ 64) ∧
      (0 ≤ Profile.wide.blockBytes ∧ 64 + 0 ≤ 64) := by decide
theorem test_witness_UnpackResult :
    58 + Profile.narrow.blockBytes ≤ 64 ∧ 57 + Profile.wide.blockBytes ≤ 64 := by decide
theorem test_witness_PrfmsgResult : ∃ off, off = 48 ∧ off ≤ 48 := ⟨48, rfl, le_refl _⟩
theorem test_witness_LoadResults : ∃ off n, off + n = 64 ∧ n = 32 ∧ off + n ≤ 64 := ⟨32, 32, rfl, rfl, le_refl _⟩
theorem test_witness_StoreResults : ∃ off n, off + n = 64 ∧ n = 1 ∧ off + n ≤ 64 := ⟨63, 1, rfl, rfl, le_refl _⟩

/-- A divisor with q.l2 = 1, the smallest that R107 accepts, and a dividend. -/
def divState (x q : Nat) : State := (State.reset.setV 0 x).setV 1 q

theorem test_witness_DivsClosedForm :
    (∃ q o, q = (divState (2 ^ 192 - 1) (2 ^ 128)).vreg[1].toNat % 2 ^ Profile.narrow.width ∧
      q / 2 ^ 128 % 2 ^ 64 ≠ 0 ∧ q / 2 ^ 128 % 2 ^ 64 ≠ 2 ^ 64 - 1 ∧
      o = (2 ^ 192 - 1) / q + (if (2 ^ 192 - 1) % q ≥ q / 2 ^ 128 % 2 ^ 64 * 2 ^ 128 then 1 else 0) ∧ o < 2 ^ 64) ∧
    (∃ q o, q = (divState (2 ^ 192) (2 ^ 128)).vreg[1].toNat % 2 ^ Profile.wide.width ∧
      q / 2 ^ 128 % 2 ^ 64 ≠ 0 ∧ q / 2 ^ 128 % 2 ^ 64 ≠ 2 ^ 64 - 1 ∧ q / 2 ^ 192 = 0 ∧
      o = 2 ^ 192 / q + (if 2 ^ 192 % q ≥ q / 2 ^ 128 % 2 ^ 64 * 2 ^ 128 then 1 else 0) ∧ 2 ^ 64 ≤ o) :=
  ⟨⟨2 ^ 128, 2 ^ 64 - 1, by decide⟩, ⟨2 ^ 128, 2 ^ 64, by decide⟩⟩
theorem test_witness_DivsRefusesDivisor :
    (0 / 2 ^ 128 % 2 ^ 64 = 0) ∧ ((2 ^ 64 - 1) * 2 ^ 128 / 2 ^ 128 % 2 ^ 64 = 2 ^ 64 - 1) ∧
      ((2 ^ 192 + 2 ^ 128) / 2 ^ 192 ≠ 0) ∧
      (divState 1 (2 ^ 192 + 2 ^ 128)).vreg[1].toNat % 2 ^ Profile.wide.width = 2 ^ 192 + 2 ^ 128 ∧
      ∃ t, exec (.divs .wide 0 0 1) State.reset = .next t ∧ State.reset.err = false ∧ State.reset.ecode = 0#8 ∧
        t.ecode = 0x05#8 := ⟨by decide, by decide, by decide, by decide, _, rfl, by decide, by decide, by decide⟩
theorem test_witness_DivsInvertsTheScheme :
    (∃ k m r, keyInRange .narrow k ∧ limbInRange .narrow m ∧ noiseBelow .narrow r ∧
      (divState (m * k + r) k).vreg[0].toNat = m * k + r ∧ (divState (m * k + r) k).vreg[1].toNat = k) ∧
    (∃ k m r, keyInRange .wide k ∧ limbInRange .wide m ∧ noiseBelow .wide r ∧
      (divState (m * k + r) k).vreg[0].toNat = m * k + r ∧ (divState (m * k + r) k).vreg[1].toNat = k) ∧
    (∃ t, exec (.divs .narrow 0 0 1) (divState 5 (2 ^ 128)) = .next t ∧ (divState 5 (2 ^ 128)).err = false ∧
      (divState 5 (2 ^ 128)).ecode = 0#8) :=
  ⟨⟨2 ^ 141 - 1, 2 ^ 51 - 1, 2 ^ 127 + 2 ^ 135 - 1, ⟨140, by decide⟩, by unfold limbInRange; decide,
      by unfold noiseBelow; decide, by decide, by decide⟩,
    ⟨2 ^ 169 - 1, 2 ^ 63 - 1, 2 ^ 127 + 2 ^ 167 - 1, by unfold keyInRange; decide, by unfold limbInRange; decide,
      by unfold noiseBelow; decide, by decide, by decide⟩,
    ⟨_, rfl, rfl, rfl⟩⟩
theorem test_witness_LimbForms :
    (∃ t, exec (.add .narrow 1 2 3) State.reset = .next t) ∧ (∃ t, exec (.sub .wide 1 2 3) State.reset = .next t) ∧
      (∃ t, exec (.scale .wide 1 2 3) State.reset = .next t) := ⟨⟨_, rfl⟩, ⟨_, rfl⟩, ⟨_, rfl⟩⟩
theorem test_witness_KformRange :
    ∃ t, exec (.kform .narrow 1 2) State.reset = .next t ∧
      ∃ s' t' : State, s'.vreg[(3 : VReg)] = t.vreg[(1 : VReg)] ∧ s'.err = false ∧ s'.ecode = 0#8 ∧
        exec (.divs .wide 0 0 3) s' = .next t' :=
  ⟨_, rfl, State.reset.setV 3 (2 ^ 140), _, by decide, rfl, rfl, rfl⟩
theorem test_witness_NoiseWindow :
    ∃ t t', exec (.noise .wide 1 2) State.reset = .next t ∧ exec (.kform .wide 1 2) State.reset = .next t' :=
  ⟨_, _, rfl, rfl⟩

/-- Key 2^kexp in V0, noise 2^127 in V1, limb m in S0. -/
def encState (p : Profile) (m : Nat) : State := ((State.reset.setV 0 (2 ^ p.kexp)).setV 1 (2 ^ 127)).setS 0 m

theorem test_witness_EncFitsAndPreservesOrder :
    ∃ t t', limbInRange .wide 5 ∧ limbInRange .wide (2 ^ 63 - 1) ∧ noiseBelow .wide (2 ^ 127) ∧
      (encState .wide 5).vreg[0].toNat = 2 ^ Profile.wide.kexp ∧ (encState .wide 5).sreg[0].toNat = 5 ∧
      (encState .wide 5).vreg[1].toNat = 2 ^ 127 ∧
      (encState .wide (2 ^ 63 - 1)).vreg[0].toNat = 2 ^ Profile.wide.kexp ∧
      (encState .wide (2 ^ 63 - 1)).sreg[0].toNat = 2 ^ 63 - 1 ∧
      (encState .wide (2 ^ 63 - 1)).vreg[1].toNat = 2 ^ 127 ∧
      exec (.enc .wide 2 0 0 1) (encState .wide 5) = .next t ∧
      exec (.enc .wide 2 0 0 1) (encState .wide (2 ^ 63 - 1)) = .next t' ∧ 5 < 2 ^ 63 - 1 :=
  ⟨_, _, by unfold limbInRange; decide, by unfold limbInRange; decide, by unfold noiseBelow; decide, by decide,
    by decide, by decide, by decide, by decide, by decide, rfl, rfl, by decide⟩
theorem test_witness_PackTooLongRaisesPack :
    (if Profile.narrow = .narrow then 6 else 7) < 7 ∧ (if Profile.wide = .narrow then 6 else 7) < 8 := by decide
theorem test_witness_PackBounds :
    (∃ t, 6 ≤ Profile.narrow.blockBytes ∧ 58 + 6 ≤ 64 ∧ exec (.pack .narrow 0 58 6) State.reset = .next t) ∧
      (∃ t, 7 ≤ Profile.wide.blockBytes ∧ 57 + 7 ≤ 64 ∧ exec (.pack .wide 0 57 7) State.reset = .next t) :=
  ⟨⟨_, by decide, by decide, rfl⟩, ⟨_, by decide, by decide, rfl⟩⟩
theorem test_witness_PackPreservesOrder :
    ∃ t t', exec (.pack .narrow 1 0 0) State.reset = .next t ∧ exec (.pack .narrow 2 0 6) State.reset = .next t' ∧
      0 ≤ Profile.narrow.blockBytes ∧ 6 ≤ Profile.narrow.blockBytes := ⟨_, _, rfl, rfl, by decide, by decide⟩
theorem test_witness_UnpackInvertsPack :
    ∃ t, exec (.pack .wide 1 0 7) State.reset = .next t ∧ 7 ≤ Profile.wide.blockBytes ∧
      57 + Profile.wide.blockBytes ≤ 64 := ⟨_, rfl, by decide, by decide⟩
theorem test_witness_RangePastBufRaisesBuf :
    (6 ≤ Profile.narrow.blockBytes ∧ 64 < 59 + 6) ∧ 64 < 58 + Profile.wide.blockBytes ∧ 64 < 49 + 16 ∧
      64 < 63 + 2 := by decide
theorem test_witness_BlockStoreLoadRoundTrip :
    (∃ t, 35 + Profile.wide.cipherBytes ≤ 64 ∧ State.reset.vreg[0].toNat < 2 ^ (8 * Profile.wide.cipherBytes) ∧
      exec (.stbe 0 35 Profile.wide.cipherBytes) State.reset = .next t) ∧
    (∃ t, 40 + Profile.narrow.cipherBytes ≤ 64 ∧ State.reset.vreg[0].toNat < 2 ^ (8 * Profile.narrow.cipherBytes) ∧
      exec (.stbe 0 40 Profile.narrow.cipherBytes) State.reset = .next t) :=
  ⟨⟨_, by decide, by decide, rfl⟩, ⟨_, by decide, by decide, rfl⟩⟩
theorem test_witness_LdleReadsThreeLimbs : ∃ off, off = 40 ∧ off + 24 ≤ 64 := ⟨40, rfl, le_refl _⟩
theorem test_witness_Reset :
    (withTurn .rst).turns = .rst :: [] ∧ (withTurn (hostW 0x008 3)).turns = hostW 0x008 3 :: [] ∧
      (3 : Limb).getLsbD 1 = true := by decide
theorem test_witness_StepKeepsInvariant :
    (∃ t, State.reset.Inv ∧ step State.reset = .next t) ∧
      (∃ s t : State, s.Inv ∧ s.err = true ∧ s.buf ≠ [] ∧ step s = .next t) :=
  ⟨⟨_, by decide, rfl⟩, ⟨{ State.reset with buf := [(63, 1#8)], err := true, ecode := 0x12#8 }, _, by decide, rfl,
    by decide, rfl⟩⟩
theorem test_witness_FirstErrorStays :
    ∃ s t : State, s.err = true ∧ (∀ tn rest, s.turns = tn :: rest → tn.clearsError = false) ∧ s.turns ≠ [] ∧
      step s = .next t :=
  ⟨{ withTurn (hostW 0x010 2) with err := true, ecode := 4#8 }, _, rfl,
    fun _ _ h => by cases h; decide, by decide, rfl⟩
theorem test_witness_ScheduleRunsToQuiescence :
    ∃ s : State, s.turns = [hostW 0x018 0, .engine, hostR 0x010, .rst] ∧ ∀ tn ∈ s.turns, tn.reachesUnit = true :=
  ⟨{ State.reset with turns := [hostW 0x018 0, .engine, hostR 0x010, .rst] }, rfl, by decide⟩
theorem test_witness_InterruptOutput :
    (∃ t, exec .nop { State.reset with irqEn := true } = .next t) ∧
      (withTurn (hostW 0x010 6)).turns = hostW 0x010 6 :: [] ∧ (6 : Limb).getLsbD 1 = true ∧
      (6 : Limb).getLsbD 2 = true ∧ (withTurn (hostW 0x008 0)).turns = hostW 0x008 0 :: [] ∧
      (0 : Limb).getLsbD 0 = false := ⟨⟨_, rfl⟩, rfl, by decide, by decide, rfl, by decide⟩
theorem test_witness_CommandsOnUnwrittenRegisters : ∃ off, off = 57 ∧ off + 7 ≤ 64 := ⟨57, rfl, le_refl _⟩
theorem test_witness_CmdRegister :
    ((withTurn (hostW 0x018 5)).turns = hostW 0x018 5 :: [] ∧ (withTurn (hostW 0x018 5)).pend = none) ∧
      ((pendingState 0 [hostW 0x018 5]).turns = hostW 0x018 5 :: [] ∧ (pendingState 0 [hostW 0x018 5]).pend ≠ none) ∧
      (withTurn (hostR 0x018)).turns = hostR 0x018 :: [] := by decide
theorem test_witness_StatusWriteClears :
    (withTurn (hostW 0x010 2)).turns = hostW 0x010 2 :: [] ∧ (2 : Limb).getLsbD 1 = true ∧
      (2 : Limb).getLsbD 2 = false ∧ (4 : Limb).getLsbD 1 = false ∧ (4 : Limb).getLsbD 2 = true := by decide
theorem test_witness_ControlAndReadOnlyWrites :
    (withTurn (hostW 0x008 1)).turns = hostW 0x008 1 :: [] ∧ (1 : Limb).getLsbD 1 = false ∧
      (withTurn (hostW 0x000 1)).turns = hostW 0x000 1 :: [] ∧
      (withTurn (hostW 0x020 1)).turns = hostW 0x020 1 :: [] := by decide
theorem test_witness_InadmissibleAccess :
    (∃ r : HostReq, (withTurn (.host r)).turns = .host r :: [] ∧ r.size ≠ .bytes8 ∧ r.kind = .read) ∧
      (∃ r : HostReq, (withTurn (.host r)).turns = .host r :: [] ∧ r.offset.toNat % 8 ≠ 0 ∧ r.kind ≠ .read) ∧
      (∃ (s : State) (addr : Nat), s.turns = .bus addr .bytes8 .read :: [] ∧ Config.windowBase + 4096 ≤ addr) ∧
      (∃ (s : State) (addr off : Nat), s.turns = .bus addr .bytes8 .read :: [] ∧ off = 4095 ∧ off < 4096 ∧
        addr = Config.windowBase + off) :=
  ⟨⟨⟨0, .bytes4, .read⟩, rfl, by decide, rfl⟩, ⟨⟨0xFFF, .bytes8, .write 0⟩, rfl, by decide, by decide⟩,
    ⟨withTurn (.bus (Config.windowBase + 4096) .bytes8 .read), _, rfl, le_refl _⟩,
    ⟨withTurn (.bus (Config.windowBase + 4095) .bytes8 .read), _, _, rfl, rfl, by decide, rfl⟩⟩
theorem test_witness_ReservedOffsets :
    reservedOffset 0x030 ∧ reservedOffset 0x078 ∧ reservedOffset 0x0C0 ∧ reservedOffset 0x0F8 ∧ reservedOffset 0x240 ∧
      reservedOffset 0xFF8 ∧ (withTurn (hostR 0x030)).turns = hostR 0x030 :: [] ∧
      (withTurn (hostW 0xFF8 1)).turns = hostW 0xFF8 1 :: [] := by unfold reservedOffset; decide
theorem test_witness_HostWritesOperandState :
    (withTurn (hostW 0x028 1)).pend = none ∧ (withTurn (hostW 0x028 1)).turns = hostW 0x028 1 :: [] ∧
      (withTurn (hostW 0x0B8 1)).turns = hostW (0x080 + 8 * (7 : SReg).val) 1 :: [] ∧
      (withTurn (hostW 0x1F8 1)).turns = hostW (0x100 + 0x20 * (7 : VReg).val + 8 * (3 : Fin 4).val) 1 :: [] ∧
      (withTurn (hostW 0x238 1)).turns = hostW (0x200 + 8 * (7 : Fin 8).val) 1 :: [] := by decide
theorem test_witness_HostReadsControlState :
    (withTurn (hostR 0x000)).turns = hostR 0x000 :: [] ∧ (withTurn (hostR 0x008)).turns = hostR 0x008 :: [] ∧
      (withTurn (hostR 0x010)).turns = hostR 0x010 :: [] ∧ (withTurn (hostR 0x020)).turns = hostR 0x020 :: [] := by
  decide
theorem test_witness_HostReadsOperandState :
    (withTurn (hostR 0x028)).pend = none ∧ (withTurn (hostR 0x028)).turns = hostR 0x028 :: [] ∧
      (withTurn (hostR 0x080)).turns = hostR (0x080 + 8 * (0 : SReg).val) :: [] ∧
      (withTurn (hostR 0x1F8)).turns = hostR (0x100 + 0x20 * (7 : VReg).val + 8 * (3 : Fin 4).val) :: [] ∧
      (withTurn (hostR 0x238)).turns = hostR (0x200 + 8 * (7 : Fin 8).val) :: [] := by decide
theorem test_witness_BusyOperandAccess :
    operandOffset 0x028 ∧ operandOffset 0x080 ∧ operandOffset 0x0B8 ∧ operandOffset 0x100 ∧ operandOffset 0x238 ∧
      (pendingState 0 [hostW 0x238 1]).pend ≠ none ∧ (pendingState 0 [hostW 0x238 1]).turns = hostW 0x238 1 :: [] ∧
      (pendingState 0 [hostR 0x028]).turns = hostR 0x028 :: [] := by unfold operandOffset; decide

end Sys2Proof.Tests
end

/-! Scope and moves: which errors a command can raise (O11), what the four moves leave (O23, O24), and the constants of
the profiles (O49). -/

namespace Sys2Proof.Machine

/-! ### The errors a command's checks can raise -/

/-- The codes of the command errors E_PACK, E_BUF, E_DIVPRE and E_DIVRNG (R180). -/
def commandErrorCodes : List (BitVec 8) := [0x03#8, 0x04#8, 0x05#8, 0x06#8]

/-- Where the check `r` of a command fails, it fails with a command error. -/
def RaisesCommandErrors {α : Type} (r : Except ErrCode α) : Prop :=
  ∀ e, r = .error e → e.code ∈ commandErrorCodes

theorem withRange_raises (off n : Nat) (s : State) : RaisesCommandErrors (withRange off n s) := by
  intro e he
  obtain ⟨-, rfl⟩ := withRange_eq_error.mp he
  decide

theorem packChecked_raises (p : Profile) (m : Memory) (off len : Nat) :
    RaisesCommandErrors (packChecked p m off len) := by
  intro e he
  unfold packChecked at he
  split at he
  · cases he; decide
  · split at he
    · cases he
    · cases he; decide

theorem finalCorrection_error {q x o : Nat} {e : ErrCode} (h : finalCorrection q x o = .error e) :
    e = .divRng := by
  unfold finalCorrection at h
  split at h
  · split at h
    · cases h
    · cases h; rfl
  · cases h

theorem mainLoop_error {q n x o : Nat} {e : ErrCode} (h : mainLoop q n x o = .error e) : e = .divRng := by
  induction n generalizing x o with
  | zero => exact finalCorrection_error h
  | succ n ih =>
    simp only [mainLoop] at h
    split at h
    · split at h
      · exact ih h
      · cases h; rfl
    · exact finalCorrection_error h

theorem widePrelim_error {q n x o : Nat} {e : ErrCode} (h : widePrelim q n x o = .error e) : e = .divRng := by
  induction n generalizing x o with
  | zero => cases h
  | succ n ih =>
    simp only [widePrelim] at h
    split at h
    · split at h
      · cases h; rfl
      · split at h
        · exact ih h
        · cases h; rfl
    · cases h

/-- The loops raise nothing but E_DIVRNG (R108, R109, R110). -/
theorem divLoops_error {p : Profile} {x q : Nat} {e : ErrCode} (h : divLoops p x q = .error e) : e = .divRng := by
  cases p with
  | narrow => exact mainLoop_error h
  | wide =>
    simp only [divLoops] at h
    split at h
    · exact mainLoop_error h
    · next hpre => cases h; exact widePrelim_error hpre

theorem divSmall_raises (p : Profile) (x q : Nat) : RaisesCommandErrors (divSmall p x q) := by
  intro e he
  unfold divSmall at he
  split at he
  · obtain rfl := divLoops_error he; decide
  · cases he; decide

/-- A command whose writes `f` leave ERR and whose check raises only command errors can set ERR only with one of their
codes. -/
theorem State.complete_map_ecode_mem {α : Type} {s : State} {r : Except ErrCode α} {f : α → State}
    (hr : RaisesCommandErrors r) (hf : ∀ v, r = .ok v → (f v).err = s.err) (hs : s.err = false)
    (ht : (s.complete (r.map f)).err = true) : (s.complete (r.map f)).ecode ∈ commandErrorCodes := by
  cases r with
  | ok v => simp [Except.map, hf v rfl, hs] at ht
  | error e => simpa [Except.map, hs] using hr e rfl

/-- The code a command records where ERR was 0 is a command error (R180, R181). -/
theorem exec_ecode_mem {i : Instr} {s t : State} (h : exec i s = .next t) (hs : s.err = false)
    (ht : t.err = true) : t.ecode ∈ commandErrorCodes := by
  have inRange : ∀ (off n : Nat) (f : State → State), (f s).err = s.err →
      ∀ u, withRange off n s = .ok u → (f u).err = s.err := by
    intro off n f hf u hu
    obtain ⟨-, rfl⟩ := withRange_eq_ok.mp hu
    exact hf
  cases i with
  | nop | add | sub | scale | enc | kform | noise =>
    obtain rfl := Host.Outcome.next.inj h
    exact absurd (hs.symm.trans ht) Bool.false_ne_true
  | divs =>
    obtain rfl := Host.Outcome.next.inj h
    exact State.complete_map_ecode_mem (divSmall_raises _ _ _) (fun _ _ => rfl) hs ht
  | pack =>
    obtain rfl := Host.Outcome.next.inj h
    exact State.complete_map_ecode_mem (packChecked_raises _ _ _ _) (fun _ _ => rfl) hs ht
  | unpack | ldle | ldbe | stle | stbe =>
    obtain rfl := Host.Outcome.next.inj h
    exact State.complete_map_ecode_mem (withRange_raises _ _ _) (inRange _ _ _ rfl) hs ht
  | prfmsg rs off inc =>
    obtain rfl := Host.Outcome.next.inj h
    refine State.complete_map_ecode_mem (withRange_raises _ _ _) (inRange _ _ _ ?_) hs ht
    cases inc <;> rfl

/-- Recording an error and retiring leaves what `afterError` says (R41, R186). -/
theorem State.retire_recordError (s : State) (e : ErrCode) : (s.recordError e).retire = s.afterError e.code := rfl

/-- With ERR = 0 the recorded code is the given one (R181). -/
theorem State.afterError_ecode {s : State} (hs : s.err = false) (code : BitVec 8) :
    (s.afterError code).ecode = code := by
  simp [State.afterError, hs]

/-- Settles O11: a completed command either committed its writes, which leave ERR and ECODE, or left the old state with
its error recorded. -/
theorem commandErrorsArePrecise : Obligations.CommandErrorsArePrecise := by
  intro i s t h
  obtain ⟨r, hexec, hsame⟩ := exec_completes i s
  obtain rfl : s.complete r = t := Host.Outcome.next.inj (hexec.symm.trans h)
  refine ⟨fun hs ht => ⟨?_, exec_ecode_mem h hs ht⟩, fun ht => ?_, s.complete_of_err r hsame⟩
  · obtain ⟨u, hr, hu⟩ | ⟨e, -, hu⟩ := s.complete_cases r
    · rw [hu, State.retire_err, (hsame u hr).err, hs] at ht
      cases ht
    · rw [hu, State.retire_recordError, State.afterError_ecode hs]
  · obtain ⟨u, hr, hu⟩ | ⟨e, -, hu⟩ := s.complete_cases r
    · rw [hu] at ht ⊢
      exact ⟨(hsame u hr).err.symm.trans ht, (hsame u hr).ecode⟩
    · rw [hu] at ht
      cases ht

/-! ### Moves -/

/-- A command whose range lies in BUF commits its writes (R184). -/
theorem State.complete_withRange_of_le {off n : Nat} (h : off + n ≤ 64) (s : State) (f : State → State) :
    s.complete ((withRange off n s).map f) = (f s).retire := by
  rw [withRange_of_le h]; rfl

theorem exec_ldle_of_le {off n : Nat} (h : off + n ≤ 64) (rg : VReg) (s : State) :
    exec (.ldle rg off n) s = .next (s.setV rg (s.buf.readLE off n)).retire :=
  congrArg _ (State.complete_withRange_of_le h s _)

theorem exec_ldbe_of_le {off n : Nat} (h : off + n ≤ 64) (rg : VReg) (s : State) :
    exec (.ldbe rg off n) s = .next (s.setV rg (s.buf.readBE off n)).retire :=
  congrArg _ (State.complete_withRange_of_le h s _)

theorem exec_stle_of_le {off n : Nat} (h : off + n ≤ 64) (rg : VReg) (s : State) :
    exec (.stle rg off n) s = .next (s.setBuf (s.buf.writeLE off n (s.getV rg % 2 ^ (8 * n)))).retire :=
  congrArg _ (State.complete_withRange_of_le h s _)

theorem exec_stbe_of_le {off n : Nat} (h : off + n ≤ 64) (rg : VReg) (s : State) :
    exec (.stbe rg off n) s = .next (s.setBuf (s.buf.writeBE off n (s.getV rg % 2 ^ (8 * n)))).retire :=
  congrArg _ (State.complete_withRange_of_le h s _)

theorem Memory.readLE_eq_sum (m : Memory) (a n : Nat) :
    m.readLE a n = ∑ i ∈ Finset.range n, (m.read (a + i)).toNat * 2 ^ (8 * i) := sumBelow_eq_sum _ _

theorem Memory.readBE_eq_sum (m : Memory) (a n : Nat) :
    m.readBE a n = ∑ i ∈ Finset.range n, (m.read (a + i)).toNat * 2 ^ (8 * (n - 1 - i)) := sumBelow_eq_sum _ _

/-- Settles O23: inside BUF the load commits, and what it reads is the sum of R13. -/
theorem loadResults : Obligations.LoadResults := by
  intro rg off n s h
  constructor
  · rw [exec_ldle_of_le h, Memory.readLE_eq_sum]; rfl
  · rw [exec_ldbe_of_le h, Memory.readBE_eq_sum]; rfl

/-- A byte inside the written range reads back as written. -/
theorem Memory.read_writeBytes_of_lt {i n : Nat} (h : i < n) (m : Memory) (a : Nat) (f : Nat → Byte) :
    (m.writeBytes a f n).read (a + i) = f i := by
  rw [Memory.read_writeBytes, if_pos (by omega), Nat.add_sub_cancel_left]

/-- A byte outside the written range is unchanged. -/
theorem Memory.read_writeBytes_of_not_mem {a n x : Nat} (h : ¬(a ≤ x ∧ x < a + n)) (m : Memory) (f : Nat → Byte) :
    (m.writeBytes a f n).read x = m.read x := by
  rw [Memory.read_writeBytes, if_neg h]

/-- Cutting a value to `n` bytes keeps each byte below the cut (R167). -/
theorem toNat_byteLE_mod {i n : Nat} (h : i < n) (v : Nat) :
    (byteLE (v % 2 ^ (8 * n)) i).toNat = v / 2 ^ (8 * i) % 256 := by
  have hn : 8 * n = 8 * i + 8 * (n - i) := by omega
  have h8 : 2 ^ 8 ∣ 2 ^ (8 * (n - i)) := Nat.pow_dvd_pow 2 (by omega)
  rw [byteLE, BitVec.toNat_ofNat, Nat.shiftRight_eq_div_pow, hn, pow_add, Nat.mod_mul_right_div_self]
  exact Nat.mod_mod_of_dvd _ h8

/-- Big-endian byte `i` of `n` is little-endian byte `n - 1 - i` (R13). -/
theorem toNat_byteBE_mod {i n : Nat} (h : i < n) (v : Nat) :
    (byteBE n (v % 2 ^ (8 * n)) i).toNat = v / 2 ^ (8 * (n - 1 - i)) % 256 :=
  toNat_byteLE_mod (by omega : n - 1 - i < n) v

/-- Settles O24: inside BUF the store commits, and a write of bytes changes exactly the bytes it names. -/
theorem storeResults : Obligations.StoreResults := by
  intro rg off n s h
  constructor
  · refine ⟨_, exec_stle_of_le h rg s, rfl, fun i hi => ?_, fun a ha => ?_⟩
    · exact (congrArg _ (Memory.read_writeBytes_of_lt hi _ _ _)).trans (toNat_byteLE_mod hi _)
    · exact Memory.read_writeBytes_of_not_mem ha _ _
  · refine ⟨_, exec_stbe_of_le h rg s, rfl, fun i hi => ?_, fun a ha => ?_⟩
    · exact (congrArg _ (Memory.read_writeBytes_of_lt hi _ _ _)).trans (toNat_byteBE_mod hi _)
    · exact Memory.read_writeBytes_of_not_mem ha _ _

/-! ### Profiles -/

/-- Settles O49: every constant by evaluation of its definition. -/
theorem profileConstants : Obligations.ProfileConstants := by
  unfold Obligations.ProfileConstants
  decide

end Sys2Proof.Machine

/-! The state and the window: what one step of either agent keeps (O44) and runs (O6, O9, O46), what a command retires
with and may write (O10, O12), what a host access reads and writes (O50, O51, O52, O55 to O59), and the two resets
(O41 to O43). -/

namespace Sys2Proof.Machine

/-! ### What a command may write -/

/-- `t` differs from `s` only where the command `i` may write (R22, R23, R31, R32, R145), and BUF stays canonical. -/
structure WritesOnlyOf (i : Instr) (s t : State) : Prop where
  vreg : i.writesV = false → t.vreg = s.vreg
  sreg : i.writesS = false → t.sreg = s.sreg
  buf : i.writesBuf = false → t.buf = s.buf
  ctr : (∀ rs off, i ≠ .prfmsg rs off true) → t.ctr = s.ctr
  chk : (∀ p rg rs off, i ≠ .unpack p rg rs off) → t.chk = s.chk
  wf : s.buf.wf → t.buf.wf

theorem WritesOnlyOf.refl (i : Instr) (s : State) : WritesOnlyOf i s s :=
  ⟨fun _ => rfl, fun _ => rfl, fun _ => rfl, fun _ => rfl, fun _ => rfl, id⟩

theorem WritesOnlyOf.setV {i : Instr} (hi : i.writesV = true) (s : State) (rd : VReg) (x : Nat) :
    WritesOnlyOf i s (s.setV rd x) :=
  ⟨fun h => (nomatch hi.symm.trans h), fun _ => rfl, fun _ => rfl, fun _ => rfl, fun _ => rfl, id⟩

theorem WritesOnlyOf.setS {i : Instr} (hi : i.writesS = true) (s : State) (rd : SReg) (x : Nat) :
    WritesOnlyOf i s (s.setS rd x) :=
  ⟨fun _ => rfl, fun h => (nomatch hi.symm.trans h), fun _ => rfl, fun _ => rfl, fun _ => rfl, id⟩

theorem WritesOnlyOf.setBuf {i : Instr} (hi : i.writesBuf = true) (s : State) {m : Memory}
    (hm : s.buf.wf → m.wf) : WritesOnlyOf i s (s.setBuf m) :=
  ⟨fun _ => rfl, fun _ => rfl, fun h => (nomatch hi.symm.trans h), fun _ => rfl, fun _ => rfl, hm⟩

/-- Retiring touches nothing that the frame speaks of (R41). -/
theorem WritesOnlyOf.retire {i : Instr} {s t : State} (h : WritesOnlyOf i s t) : WritesOnlyOf i s t.retire := by
  obtain ⟨hV, hS, hB, hC, hK, hwf⟩ := h
  exact ⟨hV, hS, hB, hC, hK, hwf⟩

/-- UNPACK's range check covers the bytes it writes. -/
theorem unpackWrites_writesOnly {off : Nat} {p : Profile} (h : off + p.blockBytes ≤ 64) (rg rs : SReg) (m : Nat)
    (s : State) : WritesOnlyOf (.unpack p rg rs off) s (unpackWrites p rg off m s) :=
  ⟨fun _ => rfl, nofun, nofun, fun _ => rfl, fun hi => absurd rfl (hi p rg rs off), Memory.writeBE_wf _ _ _ _ h⟩

/-- PRFMSG's range check covers the two halves it writes, and CTR moves only where I = 1 (R145). -/
theorem prfWrites_writesOnly {off : Nat} (h : off + 16 ≤ 64) (rs : SReg) (m : Nat) (inc : Bool) (s : State) :
    WritesOnlyOf (.prfmsg rs off inc) s (prfWrites off m inc s) := by
  have wf (hs : s.buf.wf) : ((s.buf.writeBE off 8 m).writeBE (off + 8) 8 s.ctr.toNat).wf :=
    Memory.writeBE_wf _ _ _ _ h (Memory.writeBE_wf _ _ _ _ (by omega : off + 8 ≤ 64) hs)
  cases inc with
  | false => exact ⟨fun _ => rfl, fun _ => rfl, nofun, fun _ => rfl, fun _ => rfl, wf⟩
  | true => exact ⟨fun _ => rfl, fun _ => rfl, nofun, fun hi => absurd rfl (hi rs off), fun _ => rfl, wf⟩

/-- An error writes nothing of V, S, BUF, CTR and CHK (R186); so only the writes that follow a passed check count. -/
theorem State.complete_map_writesOnly {α : Type} {i : Instr} {s : State} {r : Except ErrCode α} {f : α → State}
    (hf : ∀ v, r = .ok v → WritesOnlyOf i s (f v)) : WritesOnlyOf i s (s.complete (r.map f)) := by
  cases r with
  | ok v => exact (hf v rfl).retire
  | error e => exact ⟨fun _ => rfl, fun _ => rfl, fun _ => rfl, fun _ => rfl, fun _ => rfl, id⟩

/-- The writes behind a range check may rely on the range lying in BUF (R184). -/
theorem State.complete_withRange_writesOnly {i : Instr} {s : State} {off n : Nat} {f : State → State}
    (hf : off + n ≤ 64 → WritesOnlyOf i s (f s)) : WritesOnlyOf i s (s.complete ((withRange off n s).map f)) := by
  refine State.complete_map_writesOnly fun u hu => ?_
  obtain ⟨hle, rfl⟩ := withRange_eq_ok.mp hu
  exact hf hle

/-- By command: which of the shared writes it commits, and the check it rests on (R22, R23, R31, R32, R145). -/
theorem exec_writesOnly {i : Instr} {s t : State} (h : exec i s = .next t) : WritesOnlyOf i s t := by
  cases i <;> obtain rfl := Host.Outcome.next.inj h
  case nop => exact (WritesOnlyOf.refl _ s).retire
  case add | sub | scale | enc | kform | noise => exact (WritesOnlyOf.setV rfl s _ _).retire
  case divs | pack => exact State.complete_map_writesOnly fun _ _ => .setS rfl _ _ _
  case unpack => exact State.complete_withRange_writesOnly fun hle => unpackWrites_writesOnly hle _ _ _ _
  case prfmsg => exact State.complete_withRange_writesOnly fun hle => prfWrites_writesOnly hle _ _ _ _
  case ldle | ldbe => exact State.complete_withRange_writesOnly fun _ => .setV rfl _ _ _
  case stle => exact State.complete_withRange_writesOnly fun hle => .setBuf rfl _ (Memory.writeLE_wf _ _ _ _ hle)
  case stbe => exact State.complete_withRange_writesOnly fun hle => .setBuf rfl _ (Memory.writeBE_wf _ _ _ _ hle)

/-! ### The engine's turn -/

theorem engineStep_of_idle {s : State} (h : s.pend = none) : engineStep s = .next s := by
  simp only [engineStep, h]

theorem engineStep_of_decode_ok {s : State} {w : CommandWord} {i : Instr} (hp : s.pend = some w)
    (hd : decode w = .ok i) : engineStep s = exec i s := by
  simp only [engineStep, hp, executeWord, hd]

theorem engineStep_of_decode_error {s : State} {w : CommandWord} {e : DecodeError} (hp : s.pend = some w)
    (hd : decode w = .error e) : engineStep s = .next (s.recordError (decodeErrCode e)).retire := by
  simp only [engineStep, hp, executeWord, hd, State.complete_error]

/-- The engine's turn always answers, leaves nothing pending and does not touch the schedule (R37, R41). -/
theorem engineStep_completes (s : State) : ∃ t, engineStep s = .next t ∧ t.pend = none ∧ t.turns = s.turns := by
  cases hp : s.pend with
  | none => exact ⟨s, engineStep_of_idle hp, hp, rfl⟩
  | some w =>
    cases hd : decode w with
    | error e => exact ⟨_, engineStep_of_decode_error hp hd, rfl, rfl⟩
    | ok i =>
      obtain ⟨r, hexec, hsame⟩ := exec_completes i s
      obtain ⟨hpend, -, -, -, hturns, -, -⟩ := s.complete_control r hsame
      exact ⟨_, (engineStep_of_decode_ok hp hd).trans hexec, hpend, hturns⟩

theorem step_of_no_turn {s : State} (h : s.turns = []) : step s = engineStep s := by
  simp only [step, nextStep, h]

/-- With the engine next, the step is the engine's, its turn taken off the schedule (log entry 1). -/
theorem step_of_engineNext {s : State} {rest : List Turn} (h : s.engineNext rest) :
    step s = engineStep { s with turns := rest } := by
  obtain ⟨hs, rfl⟩ | hs := h
  · rw [step_of_no_turn hs, ← hs]
  · exact step_of_turn hs

/-! ### A platform access -/

theorem busAccess_of_inside {addr : Nat} {off : BitVec 12} (h : windowOffset Config.windowBase addr = some off)
    (size : AccessSize) (kind : AccessKind) (s : State) :
    busAccess addr size kind s = .next (hostAccess ⟨off, size, kind⟩ s) := by
  simp only [busAccess, h]

theorem busAccess_of_outside {addr : Nat} (h : windowOffset Config.windowBase addr = none)
    (size : AccessSize) (kind : AccessKind) (s : State) :
    busAccess addr size kind s = .refused .outsideWindow := by
  simp only [busAccess, h]

/-! ### Reads and writes of the window -/

theorem State.busy_of_idle {s : State} (h : s.pend = none) : s.busy = false := by
  rw [State.busy, h]; rfl

theorem State.busy_of_pending {s : State} (h : s.pend ≠ none) : s.busy = true := Option.isSome_iff_ne_none.mpr h

/-- A read of control state, and any read while idle, responds with the current value (R39, R58). -/
theorem State.hostRead_of_unguarded {s : State} {w : WindowReg} (h : w.isOperand = false ∨ s.pend = none) :
    s.hostRead w = s.respond (some (s.windowValue w)) := by
  have : (w.isOperand && s.busy) = false := by
    obtain hw | hp := h
    · rw [hw, Bool.false_and]
    · rw [State.busy_of_idle hp, Bool.and_false]
  rw [State.hostRead, this]; rfl

/-- What the host reads does not depend on the turns still to come. -/
theorem State.windowValue_turns (s : State) (ts : List Turn) (w : WindowReg) :
    ({ s with turns := ts } : State).windowValue w = s.windowValue w := by
  cases w <;> rfl

theorem State.hostRead_of_busy {s : State} {w : WindowReg} (hw : w.isOperand = true) (hp : s.pend ≠ none) :
    s.hostRead w = { s with rsp := some (Config.busyRead s.draws), draws := s.draws + 1 } := by
  rw [State.hostRead, hw, State.busy_of_pending hp]; rfl

/-- The busy protocol guards every write to operand state alike (R38). -/
theorem State.hostWrite_of_operand {w : WindowReg} (h : w.isOperand = true) (s : State) (v : Limb) :
    s.hostWrite w v = if s.busy then s.recordError .wbusy else s.writeOperand w v := by
  cases w with
  | ctr | sreg | vlimb | bufWord => rfl
  | id | ctrl | status | cmd | cmdcnt | reserved => cases h

theorem State.hostWrite_of_idle {s : State} {w : WindowReg} (hw : w.isOperand = true) (hp : s.pend = none)
    (v : Limb) : s.hostWrite w v = s.writeOperand w v := by
  rw [State.hostWrite_of_operand hw, State.busy_of_idle hp]; rfl

theorem State.hostWrite_of_busy {s : State} {w : WindowReg} (hw : w.isOperand = true) (hp : s.pend ≠ none)
    (v : Limb) : s.hostWrite w v = s.recordError .wbusy := by
  rw [State.hostWrite_of_operand hw, State.busy_of_pending hp]; rfl

theorem State.writeCmd_of_idle {s : State} (h : s.pend = none) (v : Limb) :
    s.writeCmd v = { s with pend := some (v.setWidth 32) } := by
  rw [State.writeCmd, State.busy_of_idle h]; rfl

theorem State.writeCmd_of_busy {s : State} (h : s.pend ≠ none) (v : Limb) :
    s.writeCmd v = s.recordError .overrun := by
  rw [State.writeCmd, State.busy_of_pending h]; rfl

theorem State.writeCtrl_of_reset {v : Limb} (h : v.getLsbD 1 = true) (s : State) :
    s.writeCtrl v = s.resetUnit := by
  rw [State.writeCtrl, h]; rfl

theorem State.writeCtrl_of_no_reset {v : Limb} (h : v.getLsbD 1 = false) (s : State) :
    s.writeCtrl v = { s with irqEn := v.getLsbD 0 } := by
  rw [State.writeCtrl, h]; rfl

theorem State.writeStatus_err_of_clear {v : Limb} (h : v.getLsbD 2 = true) (s : State) :
    (s.writeStatus v).err = false := by
  rw [State.writeStatus_err, h, Bool.not_true, Bool.and_false]

theorem State.writeStatus_ecode_of_clear {v : Limb} (h : v.getLsbD 2 = true) (s : State) :
    (s.writeStatus v).ecode = 0#8 := by
  rw [State.writeStatus_ecode, if_pos h]

theorem State.writeStatus_err_of_not {v : Limb} (h : v.getLsbD 2 = false) (s : State) :
    (s.writeStatus v).err = s.err := by
  rw [State.writeStatus_err, h, Bool.not_false, Bool.and_true]

theorem State.writeStatus_ecode_of_not {v : Limb} (h : v.getLsbD 2 = false) (s : State) :
    (s.writeStatus v).ecode = s.ecode := by
  rw [State.writeStatus_ecode, h]; rfl

/-- The window is 4096 bytes, a multiple of 8, so an offset's alignment survives its cut to 12 bits. -/
theorem toNat_ofNat_mod_eight {off : Nat} (h : off % 8 = 0) : (BitVec.ofNat 12 off).toNat % 8 = 0 := by
  rw [BitVec.toNat_ofNat]; omega

/-- A scheduled write at an aligned offset, by the register it names (R40, R51). -/
theorem step_of_hostW_reg {s : State} {off : Nat} {v : Limb} {rest : List Turn} {w : WindowReg}
    (h : s.turns = hostW off v :: rest) (h8 : off % 8 = 0)
    (hw : windowReg ((BitVec.ofNat 12 off).toNat / 8) = w) :
    step s = .next ((({ s with turns := rest } : State).hostWrite w v).respond none) := by
  rw [step_of_hostW h (toNat_ofNat_mod_eight h8), hw]

/-- A scheduled read at an aligned offset, by the register it names (R40, R51). -/
theorem step_of_hostR_reg {s : State} {off : Nat} {rest : List Turn} {w : WindowReg}
    (h : s.turns = hostR off :: rest) (h8 : off % 8 = 0)
    (hw : windowReg ((BitVec.ofNat 12 off).toNat / 8) = w) :
    step s = .next (({ s with turns := rest } : State).hostRead w) := by
  rw [step_of_hostR h (toNat_ofNat_mod_eight h8), hw]

/-- A scheduled read that the busy protocol does not guard changes nothing of the unit (R39, R58). -/
theorem step_of_hostR_unguarded {s : State} {off : Nat} {rest : List Turn} {w : WindowReg}
    (hg : w.isOperand = false ∨ s.pend = none) (h : s.turns = hostR off :: rest) (h8 : off % 8 = 0)
    (hw : windowReg ((BitVec.ofNat 12 off).toNat / 8) = w) :
    step s = .next { s with turns := rest, rsp := some (s.windowValue w) } := by
  rw [step_of_hostR_reg h h8 hw, State.hostRead_of_unguarded (s := { s with turns := rest }) hg,
    State.windowValue_turns]
  rfl

/-- A scheduled write to operand state while idle (R38). -/
theorem step_of_hostW_idle {s : State} {off : Nat} {v : Limb} {rest : List Turn} {w : WindowReg}
    (hp : s.pend = none) (hop : w.isOperand = true) (h : s.turns = hostW off v :: rest) (h8 : off % 8 = 0)
    (hw : windowReg ((BitVec.ofNat 12 off).toNat / 8) = w) :
    step s = .next ((({ s with turns := rest } : State).writeOperand w v).respond none) := by
  rw [step_of_hostW_reg h h8 hw, State.hostWrite_of_idle (s := { s with turns := rest }) hop hp]

/-! ### The invariant -/

/-- The invariant speaks of BUF, ERR and ECODE alone. -/
theorem State.Inv.of_same {s t : State} (h : s.Inv) (hbuf : t.buf.wf) (herr : t.err = s.err)
    (hecode : t.ecode = s.ecode) : t.Inv := by
  obtain ⟨-, h0, h1⟩ := h
  rw [← herr, ← hecode] at h0 h1
  exact ⟨hbuf, h0, h1⟩

theorem State.Inv.recordError {s : State} (h : s.Inv) (e : ErrCode) : (s.recordError e).Inv := by
  obtain ⟨hbuf, -, h1⟩ := h
  refine ⟨hbuf, nofun, fun _ => ?_⟩
  rw [State.recordError_ecode]
  split
  · next herr => exact h1 herr
  · exact e.code_mem

/-- Settles O43: BUF is empty, ERR and ECODE are 0. -/
theorem resetMeetsInvariant : Obligations.ResetMeetsInvariant :=
  ⟨State.reset_buf_wf, fun _ => rfl, nofun⟩

theorem State.resetUnit_inv (s : State) : s.resetUnit.Inv :=
  State.Inv.of_same resetMeetsInvariant State.reset_buf_wf rfl rfl

/-- Bit 2 clears ERR and ECODE together, so the code never outlives the flag (R27). -/
theorem State.Inv.writeStatus {s : State} (h : s.Inv) (v : Limb) : (s.writeStatus v).Inv := by
  cases hv : v.getLsbD 2 with
  | false => exact h.of_same h.1 (s.writeStatus_err_of_not hv) (s.writeStatus_ecode_of_not hv)
  | true =>
    have herr := s.writeStatus_err_of_clear hv
    exact ⟨h.1, fun _ => s.writeStatus_ecode_of_clear hv, fun h' => nomatch herr.symm.trans h'⟩

theorem State.Inv.hostRead {s : State} (h : s.Inv) (w : WindowReg) : (s.hostRead w).Inv := by
  unfold State.hostRead
  split <;> exact h

/-- A BUF word lies inside BUF, so a host write keeps BUF canonical (R53, R54). -/
theorem State.Inv.writeOperand {s : State} (h : s.Inv) (w : WindowReg) (v : Limb) : (s.writeOperand w v).Inv := by
  cases w with
  | bufWord k =>
    have hk : 8 * k.val + 8 ≤ 64 := by omega
    exact h.of_same (Memory.writeLE_wf _ _ _ _ hk h.1) rfl rfl
  | _ => exact h

theorem State.Inv.hostWrite {s : State} (h : s.Inv) (w : WindowReg) (v : Limb) : (s.hostWrite w v).Inv := by
  cases w with
  | ctrl =>
    show (s.writeCtrl v).Inv
    unfold State.writeCtrl
    split
    · exact s.resetUnit_inv
    · exact h
  | status => exact h.writeStatus v
  | cmd =>
    show (s.writeCmd v).Inv
    unfold State.writeCmd
    split
    · exact h.recordError _
    · exact h
  | id | cmdcnt | reserved => exact h
  | ctr | sreg | vlimb | bufWord =>
    rw [State.hostWrite_of_operand rfl]
    split
    · exact h.recordError _
    · exact h.writeOperand _ _

theorem State.Inv.hostAccess {s : State} (h : s.Inv) (r : HostReq) : (hostAccess r s).Inv := by
  unfold Machine.hostAccess
  split <;> split
  · exact h.hostRead _
  · exact h.recordError _
  · exact h.hostWrite _ _
  · exact h.recordError _

/-- A command keeps the invariant: its writes leave ERR and ECODE and keep BUF canonical, and an error's code is one of
R180. -/
theorem State.Inv.exec {s t : State} {i : Instr} (h : s.Inv) (ht : exec i s = .next t) : t.Inv := by
  have hbuf : t.buf.wf := (exec_writesOnly ht).wf h.1
  obtain ⟨r, hexec, hsame⟩ := exec_completes i s
  obtain rfl : s.complete r = t := Host.Outcome.next.inj (hexec.symm.trans ht)
  obtain ⟨u, hr, hu⟩ | ⟨e, -, hu⟩ := s.complete_cases r
  · rw [hu] at hbuf ⊢
    exact h.of_same hbuf (hsame u hr).err (hsame u hr).ecode
  · rw [hu]
    exact h.recordError e

theorem State.Inv.engineStep {s t : State} (h : s.Inv) (ht : engineStep s = .next t) : t.Inv := by
  cases hp : s.pend with
  | none =>
    rw [engineStep_of_idle hp] at ht
    obtain rfl := Host.Outcome.next.inj ht
    exact h
  | some w =>
    cases hd : decode w with
    | ok i => exact h.exec ((engineStep_of_decode_ok hp hd).symm.trans ht)
    | error e =>
      rw [engineStep_of_decode_error hp hd] at ht
      obtain rfl := Host.Outcome.next.inj ht
      exact h.recordError _

theorem State.Inv.takeTurn {s t : State} {tn : Turn} (h : s.Inv) (ht : takeTurn tn s = .next t) : t.Inv := by
  cases tn with
  | engine => exact h.engineStep ht
  | host r =>
    obtain rfl := Host.Outcome.next.inj ht
    exact h.hostAccess r
  | bus addr size kind =>
    change busAccess addr size kind s = .next t at ht
    cases hoff : windowOffset Config.windowBase addr with
    | none => rw [busAccess_of_outside hoff] at ht; cases ht
    | some off =>
      rw [busAccess_of_inside hoff] at ht
      obtain rfl := Host.Outcome.next.inj ht
      exact h.hostAccess _
  | rst =>
    obtain rfl := Host.Outcome.next.inj ht
    exact s.resetUnit_inv

/-- Settles O44: by the agent that has the turn, each of whose operations keeps the invariant. -/
theorem stepKeepsInvariant : Obligations.StepKeepsInvariant := by
  intro s t h ht
  cases hs : s.turns with
  | nil => exact h.engineStep ((step_of_no_turn hs).symm.trans ht)
  | cons tn ts =>
    have h' : ({ s with turns := ts } : State).Inv := h
    exact h'.takeTurn ((step_of_turn hs).symm.trans ht)

/-! ### Commands -/

/-- Settles O10: every command completes, and completing is the retirement of R41. -/
theorem everyCommandRetires : Obligations.EveryCommandRetires := by
  intro i s
  obtain ⟨r, hexec, hsame⟩ := exec_completes i s
  obtain ⟨hpend, hdone, hcnt, hframe⟩ := s.complete_control r hsame
  exact ⟨_, hexec, hpend, hdone, by rw [hcnt, BitVec.toNat_add]; rfl, hframe⟩

/-- Settles O12, by the frame of each command's writes. -/
theorem commandsWriteOnlyWhatTheyMay : Obligations.CommandsWriteOnlyWhatTheyMay := by
  intro i s t h
  obtain ⟨hV, hS, hB, hC, hK, -⟩ := exec_writesOnly h
  exact ⟨hV, hS, hB, hC, hK⟩

/-! ### The schedule -/

/-- A turn that reaches the unit is answered, and takes no other turn off the schedule (R37). -/
theorem takeTurn_completes {tn : Turn} (h : tn.reachesUnit = true) (s : State) :
    ∃ t, takeTurn tn s = .next t ∧ t.turns = s.turns := by
  cases tn with
  | engine =>
    obtain ⟨t, ht, -, hturns⟩ := engineStep_completes s
    exact ⟨t, ht, hturns⟩
  | host r => exact ⟨_, rfl, hostAccess_turns r s⟩
  | bus addr size kind =>
    obtain ⟨off, hoff⟩ := Option.isSome_iff_exists.mp h
    exact ⟨_, busAccess_of_inside hoff size kind s, hostAccess_turns _ s⟩
  | rst => exact ⟨_, rfl, rfl⟩

/-- Settles O46, by induction on the schedule; the last step is the engine's. -/
theorem scheduleRunsToQuiescence : Obligations.ScheduleRunsToQuiescence := by
  suffices ∀ (ts : List Turn) (s : State), s.turns = ts → (∀ tn ∈ ts, tn.reachesUnit = true) →
      ∃ t : State, Host.Core.run core (ts.length + 1) s = .next t ∧ t.turns = [] ∧ t.pend = none from
    fun s h => this s.turns s rfl h
  intro ts
  induction ts with
  | nil =>
    intro s hs _
    obtain ⟨t, ht, hpend, hturns⟩ := engineStep_completes s
    exact ⟨t, run_of_next core 0 s t ((step_of_no_turn hs).trans ht), hturns.trans hs, hpend⟩
  | cons tn ts ih =>
    intro s hs h
    obtain ⟨u, hu, hturns⟩ := takeTurn_completes (h tn List.mem_cons_self) { s with turns := ts }
    obtain ⟨t, hrun, ht⟩ := ih u hturns fun tn' h' => h tn' (List.mem_cons_of_mem _ h')
    exact ⟨t, (run_of_next core _ s u ((step_of_turn hs).trans hu)).trans hrun, ht⟩

/-- Settles O6: the engine's step on a word that decodes. -/
theorem stepRunsDecodedCommand : Obligations.StepRunsDecodedCommand :=
  fun _ _ _ _ hnext hp hd => (step_of_engineNext hnext).trans (engineStep_of_decode_ok hp hd)

/-- Settles O9: an engine with nothing pending takes no step. -/
theorem idleUnitChangesNothing : Obligations.IdleUnitChangesNothing :=
  fun _ hp => ⟨fun hs => (step_of_no_turn hs).trans (engineStep_of_idle hp),
    fun _ hs => (step_of_turn hs).trans (engineStep_of_idle hp)⟩

/-! ### Limbs, bytes and bits as the host sees them -/

/-- A byte of a register as BUF holds it (R13). -/
theorem byteLE_toNat {n : Nat} (v : BitVec n) (i : Nat) : byteLE v.toNat i = v.extractLsb' (8 * i) 8 := by
  apply BitVec.eq_of_toNat_eq
  simp [byteLE]

/-- The byte of a little-endian read is the byte of BUF at its address (R13, R53). -/
theorem extractLsb'_readLE (m : Memory) (a : Nat) {b : Nat} (hb : b < 8) :
    (BitVec.ofNat 64 (m.readLE a 8)).extractLsb' (8 * b) 8 = m.read (a + b) := by
  rw [← byteLE_toNat, BitVec.toNat_ofNat]
  apply BitVec.eq_of_toNat_eq
  exact (toNat_byteLE_mod hb _).trans (sumBelow_byte (fun i => m.read (a + i)) 8 b hb)

/-- A limb after a host write of one limb (R56). -/
theorem extractLsb'_replaceLimb (x : BitVec 256) (i j : Fin 4) (v : Limb) :
    (BitVec.ofNat 256 (replaceLimb x.toNat j v.toNat)).extractLsb' (64 * i.val) 64 =
      if i = j then v else x.extractLsb' (64 * i.val) 64 := by
  rw [← ofNat_limb, BitVec.toNat_ofNat, Nat.mod_eq_of_lt (replaceLimb_lt _ _ _ v.isLt),
    limb_replaceLimb _ _ _ _ v.isLt, ← ofNat_limb, apply_ite (BitVec.ofNat 64), BitVec.ofNat_toNat,
    BitVec.setWidth_eq]

theorem getLsbD_eq_of_div_mod {n i : Nat} {x : BitVec n} {b : Bool} (h : x.toNat / 2 ^ i % 2 = b.toNat) :
    x.getLsbD i = b := by
  rw [BitVec.getLsbD, Nat.testBit_eq_decide_div_mod_eq, h]
  cases b <;> rfl

theorem extractLsb'_eq_of_div_mod {n i k : Nat} {x : BitVec n} {y : BitVec k}
    (h : x.toNat / 2 ^ i % 2 ^ k = y.toNat) : x.extractLsb' i k = y := by
  apply BitVec.eq_of_toNat_eq
  rw [BitVec.extractLsb'_toNat, Nat.shiftRight_eq_div_pow, h]

/-- The fields of STATUS fit its word, so nothing is cut (R26). -/
theorem State.toNat_statusWord (s : State) : s.statusWord.toNat =
    s.busy.toNat + s.done.toNat * 2 + s.err.toNat * 4 + s.chk.toNat * 8 + s.ecode.toNat * 256 := by
  have := s.busy.toNat_le
  have := s.done.toNat_le
  have := s.err.toNat_le
  have := s.chk.toNat_le
  have := s.ecode.isLt
  exact Nat.mod_eq_of_lt (by omega)

/-- STATUS bit by bit (R26). -/
theorem State.statusWord_fields (s : State) :
    s.statusWord.getLsbD 0 = s.busy ∧ s.statusWord.getLsbD 1 = s.done ∧ s.statusWord.getLsbD 2 = s.err ∧
      s.statusWord.getLsbD 3 = s.chk ∧ s.statusWord.extractLsb' 4 4 = 0#4 ∧
      s.statusWord.extractLsb' 8 8 = s.ecode ∧ s.statusWord.extractLsb' 16 48 = 0#48 := by
  have hword := s.toNat_statusWord
  have := s.busy.toNat_le
  have := s.done.toNat_le
  have := s.err.toNat_le
  have := s.chk.toNat_le
  have := s.ecode.isLt
  exact ⟨getLsbD_eq_of_div_mod (by omega), getLsbD_eq_of_div_mod (by omega), getLsbD_eq_of_div_mod (by omega),
    getLsbD_eq_of_div_mod (by omega), extractLsb'_eq_of_div_mod (by rw [BitVec.toNat_zero]; omega),
    extractLsb'_eq_of_div_mod (by omega), extractLsb'_eq_of_div_mod (by rw [BitVec.toNat_zero]; omega)⟩

/-! ### Host accesses -/

/-- Settles O55: the write reaches the register its offset names and no other. -/
theorem hostWritesOperandState : Obligations.HostWritesOperandState := by
  intro s rest v hp
  refine ⟨fun hs => ?_, fun i hs => ?_, fun i j hs => ?_, fun k hs => ?_⟩
  · rw [step_of_hostW_idle (w := .ctr) hp rfl hs rfl rfl]
    simp [State.writeOperand, State.setCtr, State.respond]
  · rw [step_of_hostW_idle hp rfl hs (by omega) (windowReg_sreg i)]
    simp [State.writeOperand, State.setS, State.respond]
  · refine ⟨_, step_of_hostW_idle hp rfl hs (by omega) (windowReg_vlimb i j), rfl, fun i' hne => ?_, fun j' => ?_⟩
    · exact Vector.getElem_set_ne i.isLt i'.isLt fun h => hne (Fin.ext h.symm)
    · exact (congrArg _ (Vector.getElem_set_self _)).trans (extractLsb'_replaceLimb s.vreg[i] j' j v)
  · refine ⟨_, step_of_hostW_idle hp rfl hs (by omega) (windowReg_bufWord k), rfl, fun a => ?_⟩
    rw [← byteLE_toNat]
    exact Memory.read_writeBytes _ _ _ _ _

/-- CTRL reads as IRQ_EN in bit 0 (R25). -/
theorem State.ctrlWord_eq_ite (s : State) : s.ctrlWord = if s.irqEn = true then 1#64 else 0#64 := by
  unfold State.ctrlWord
  cases s.irqEn <;> rfl

/-- Settles O56: control state is never guarded by the busy protocol. -/
theorem hostReadsControlState : Obligations.HostReadsControlState := by
  intro s rest
  refine ⟨fun hs => step_of_hostR_unguarded (w := .id) (.inl rfl) hs rfl rfl, fun hs => ?_,
    fun hs => ⟨_, step_of_hostR_unguarded (w := .status) (.inl rfl) hs rfl rfl, s.statusWord_fields⟩,
    fun hs => step_of_hostR_unguarded (w := .cmdcnt) (.inl rfl) hs rfl rfl⟩
  rw [← s.ctrlWord_eq_ite]
  exact step_of_hostR_unguarded (w := .ctrl) (.inl rfl) hs rfl rfl

/-- Settles O57: an idle read responds with the value of the register its offset names. -/
theorem hostReadsOperandState : Obligations.HostReadsOperandState := by
  intro s rest hp
  refine ⟨fun hs => step_of_hostR_unguarded (w := .ctr) (.inr hp) hs rfl rfl,
    fun i hs => step_of_hostR_unguarded (.inr hp) hs (by omega) (windowReg_sreg i), fun i j hs => ?_,
    fun k hs => ⟨_, step_of_hostR_unguarded (.inr hp) hs (by omega) (windowReg_bufWord k),
      fun b hb => extractLsb'_readLE s.buf _ hb⟩⟩
  rw [← ofNat_limb]
  exact step_of_hostR_unguarded (.inr hp) hs (by omega) (windowReg_vlimb i j)

/-- Settles O50: CMD issues while idle, raises E_OVERRUN while busy, reads 0. -/
theorem cmdRegister : Obligations.CmdRegister := by
  intro s rest v
  refine ⟨fun hs hp => ?_, fun hs hp => ?_,
    fun hs => step_of_hostR_unguarded (w := .cmd) (.inl rfl) hs rfl rfl⟩
  · rw [step_of_hostW_reg (w := .cmd) hs rfl rfl, State.hostWrite,
      State.writeCmd_of_idle (s := { s with turns := rest }) hp, BitVec.setWidth_eq_extractLsb' (by decide)]
    rfl
  · rw [step_of_hostW_reg (w := .cmd) hs rfl rfl, State.hostWrite,
      State.writeCmd_of_busy (s := { s with turns := rest }) hp]
    rfl

/-- Settles O51, by the fields of the write-1-to-clear. -/
theorem statusWriteClears : Obligations.StatusWriteClears := by
  intro s rest v hs
  refine ⟨_, step_of_hostW_reg (w := .status) hs rfl rfl, rfl, fun hv => ?_, fun hv => ?_,
    fun hv => ⟨State.writeStatus_err_of_clear hv _, State.writeStatus_ecode_of_clear hv _⟩,
    fun hv => ⟨State.writeStatus_err_of_not hv _, State.writeStatus_ecode_of_not hv _⟩⟩
  all_goals simp only [State.hostWrite, State.respond_done, State.writeStatus_done, hv, Bool.not_true, Bool.not_false,
    Bool.and_false, Bool.and_true]

/-- Settles O52: without bit 1 a CTRL write sets IRQ_EN, and ID and CMDCNT have no write. -/
theorem controlAndReadOnlyWrites : Obligations.ControlAndReadOnlyWrites := by
  intro s rest v
  refine ⟨fun hs hv => ?_, fun hs => step_of_hostW_reg (w := .id) hs rfl rfl,
    fun hs => step_of_hostW_reg (w := .cmdcnt) hs rfl rfl⟩
  rw [step_of_hostW_reg (w := .ctrl) hs rfl rfl, State.hostWrite, State.writeCtrl_of_no_reset hv]
  rfl

/-- Settles O58: the busy protocol discards the write and records E_WBUSY. -/
theorem busyOperandWrites : Obligations.BusyOperandWrites := by
  intro s rest off v hoff hp hs
  rw [step_of_hostW_reg hs hoff.1 rfl,
    State.hostWrite_of_busy (s := { s with turns := rest }) (windowReg_operand hoff) hp]
  rfl

/-- Settles O59: a busy-time read draws a free value. -/
theorem busyOperandReads : Obligations.BusyOperandReads := by
  intro s rest off hoff hp hs
  refine ⟨Config.busyRead s.draws, s.draws + 1, ?_⟩
  rw [step_of_hostR_reg hs hoff.1 rfl,
    State.hostRead_of_busy (s := { s with turns := rest }) (windowReg_operand hoff) hp]

/-! ### Resets -/

/-- Settles O42: both events run the same reset of the unit. -/
theorem softResetEqualsHardwareReset : Obligations.SoftResetEqualsHardwareReset := by
  intro s rest v hv
  refine ⟨fun hs => ?_, fun hs => step_of_turn hs⟩
  rw [step_of_hostW_reg (w := .ctrl) hs rfl rfl, State.hostWrite, State.writeCtrl_of_reset hv]
  rfl

/-- The table of R44 does not speak of the schedule and the draw count. -/
theorem State.reset_hasResetValues (ts : List Turn) (d : Nat) :
    ({ State.reset with turns := ts, draws := d } : State).HasResetValues where
  vreg _ := Vector.getElem_replicate _
  sreg _ := Vector.getElem_replicate _
  ctr := rfl
  buf _ := rfl
  irqEn := rfl
  done := rfl
  err := rfl
  chk := rfl
  ecode := rfl
  cmdcnt := rfl
  pend := rfl
  busy := rfl
  irq := rfl
  id := rfl

/-- Settles O41: the reset of O42 has the values of the table, for every schedule and draw count. -/
theorem resetValues : Obligations.ResetValues := by
  refine ⟨State.reset_hasResetValues [] 0, fun s rest v h => ?_⟩
  refine ⟨_, ?_, State.reset_hasResetValues rest s.draws⟩
  obtain hs | ⟨hs, hv⟩ := h
  · exact step_of_turn hs
  · exact (softResetEqualsHardwareReset s rest v hv).1 hs

end Sys2Proof.Machine

/-! Memory: inadmissible and out-of-window accesses (O53), and the reserved offsets (O54). -/

namespace Sys2Proof.Machine

/-! ### Accesses that are not admissible -/

theorem HostReq.admissible_eq_false {r : HostReq} (h : r.size ≠ .bytes8 ∨ r.offset.toNat % 8 ≠ 0) :
    r.admissible = false := by
  obtain hsize | hoff := h
  · rw [HostReq.admissible, decide_eq_false hsize, Bool.false_and]
  · rw [HostReq.admissible, decide_eq_false hoff, Bool.and_false]

/-- Admissibility is checked before the register is looked at (R40), so neither the offset nor BUSY matters. -/
theorem hostAccess_read_of_inadmissible {r : HostReq} (h : r.admissible = false) (hkind : r.kind = .read)
    (s : State) : hostAccess r s = (s.recordError .bus).respond (some 0#64) := by
  simp only [hostAccess, hkind, h, Bool.false_eq_true, if_false]

theorem hostAccess_write_of_inadmissible {r : HostReq} (h : r.admissible = false) (hkind : r.kind ≠ .read)
    (s : State) : hostAccess r s = (s.recordError .bus).respond none := by
  cases hk : r.kind with
  | read => exact absurd hk hkind
  | write v => simp only [hostAccess, hk, h, Bool.false_eq_true, if_false]

/-! ### The window -/

theorem step_of_host {s : State} {r : HostReq} {rest : List Turn} (h : s.turns = .host r :: rest) :
    step s = .next (hostAccess r { s with turns := rest }) := step_of_turn h

/-- A platform access inside the window steps as the host access at its offset (R50). -/
theorem step_of_bus_inside {s : State} {addr : Nat} {off : BitVec 12} {size : AccessSize} {kind : AccessKind}
    {rest : List Turn} (h : s.turns = .bus addr size kind :: rest)
    (hoff : windowOffset Config.windowBase addr = some off) :
    step s = step { s with turns := .host ⟨off, size, kind⟩ :: rest } := by
  rw [step_of_turn h, step_of_host (s := { s with turns := .host ⟨off, size, kind⟩ :: rest }) rfl]
  exact busAccess_of_inside hoff size kind _

/-- A platform access outside the window does not reach the unit (R52; log entry 7). -/
theorem step_of_bus_outside {s : State} {addr : Nat} {size : AccessSize} {kind : AccessKind} {rest : List Turn}
    (h : s.turns = .bus addr size kind :: rest) (hoff : windowOffset Config.windowBase addr = none) :
    step s = .refused .outsideWindow :=
  (step_of_turn h).trans (busAccess_of_outside hoff size kind _)

/-- Settles O53: the admissibility check fails first, and the window decoder gives a platform access its offset. -/
theorem inadmissibleAccess : Obligations.InadmissibleAccess := by
  refine ⟨fun s rest r hs hbad => ?_, fun s rest addr size kind hs => ⟨fun hout => ?_, ?_⟩⟩
  · have hadm := HostReq.admissible_eq_false hbad
    refine ⟨fun hread => ?_, fun hwrite => ?_⟩
    · rw [step_of_host hs, hostAccess_read_of_inadmissible hadm hread]
      rfl
    · rw [step_of_host hs, hostAccess_write_of_inadmissible hadm hwrite]
      rfl
  · exact step_of_bus_outside hs (windowOffset_outside _ _ hout)
  · rintro off hoff rfl
    exact step_of_bus_inside hs (windowOffset_inside _ _ hoff)

/-- Settles O54: every such offset decodes to `.reserved`, which the busy protocol does not guard and which reads 0 and
has no write. -/
theorem reservedOffsets : Obligations.ReservedOffsets := by
  intro s rest off v hoff
  have hreg := windowReg_reserved hoff
  obtain ⟨h8, -⟩ := hoff
  exact ⟨fun hs => step_of_hostR_unguarded (.inl rfl) hs h8 hreg, fun hs => step_of_hostW_reg hs h8 hreg⟩

end Sys2Proof.Machine

/-! Encoding: the two word formats taken apart (R74, R75), what decode answers in terms of the table (R81, R86), the two
round trips (O1, O2), the table's uniqueness (O3, O4), the worked encodings (O5), and reserved opcodes (O7). -/

namespace Sys2Proof.Machine

/-! ### Fields at their places -/

/-- A field read where it was placed is the field (R71). -/
theorem extractLsb'_place {n lo : Nat} (f : BitVec n) (h : lo + n ≤ 32) : (place f lo).extractLsb' lo n = f := by
  ext i hi
  have hlt : lo + i < 32 := by omega
  simp [place, hi, hlt]

/-- A field is 0 at every other place. -/
theorem extractLsb'_place_of_disjoint {n lo a k : Nat} (f : BitVec n) (h : a + k ≤ lo ∨ lo + n ≤ a) :
    (place f lo).extractLsb' a k = 0#k := by
  ext i hi
  simp only [place, BitVec.getElem_extractLsb', BitVec.getLsbD_shiftLeft, BitVec.getLsbD_setWidth,
    BitVec.getElem_zero]
  obtain hbelow | habove := h
  · simp [show a + i < lo by omega]
  · simp [BitVec.getLsbD_of_ge f (a + i - lo) (by omega)]

/-- A mask meets a placed field in the bits it has at the field's place (R81). -/
theorem place_and {n lo : Nat} (f : BitVec n) (m : BitVec 32) :
    place f lo &&& m = place (f &&& m.extractLsb' lo n) lo := by
  ext i hi
  simp only [place, BitVec.getElem_and, BitVec.getElem_shiftLeft, BitVec.getElem_setWidth, BitVec.getLsbD_and,
    BitVec.getLsbD_extractLsb']
  by_cases hlo : i < lo
  · simp [hlo]
  · have hsum : lo + (i - lo) = i := by omega
    by_cases hn : i - lo < n
    · simp [hn, hsum, hlo, hi]
    · simp [hn, BitVec.getLsbD_of_ge f (i - lo) (by omega)]

/-- Bit `i` of a word's own field, put back at its place. -/
theorem getLsbD_place_extractLsb' (w : CommandWord) {lo n i : Nat} (hi : i < 32) :
    (place (w.extractLsb' lo n) lo).getLsbD i = (decide (lo ≤ i ∧ i < lo + n) && w.getLsbD i) := by
  simp only [place, BitVec.getLsbD_shiftLeft, BitVec.getLsbD_setWidth, BitVec.getLsbD_extractLsb', hi]
  by_cases hlo : lo ≤ i
  · have hsum : lo + (i - lo) = i := by omega
    simp [hlo, hsum, show i - lo < 32 by omega, show i - lo < n ↔ i < lo + n by omega]
  · simp [hlo]

/-- Two adjacent fields of a word, put back, are the one field that spans both. -/
theorem place_or_place_adjacent (w : CommandWord) {hi lo k j : Nat} (hhi : hi = lo + k) :
    place (w.extractLsb' hi j) hi ||| place (w.extractLsb' lo k) lo = place (w.extractLsb' lo (j + k)) lo := by
  apply BitVec.eq_of_getLsbD_eq
  intro i h32
  rw [BitVec.getLsbD_or, getLsbD_place_extractLsb' w h32, getLsbD_place_extractLsb' w h32,
    getLsbD_place_extractLsb' w h32, ← Bool.and_or_distrib_right, ← Bool.decide_or]
  congr 2
  simp only [eq_iff_iff]
  omega

/-- A word whose bits below `lo` are 0 is its upper field, put back. -/
theorem place_upper_field (w : CommandWord) {lo n : Nat} (hn : lo + n = 32) (h : w.extractLsb' 0 lo = 0#lo) :
    place (w.extractLsb' lo n) lo = w := by
  apply BitVec.eq_of_getLsbD_eq
  intro i h32
  rw [getLsbD_place_extractLsb' w h32]
  by_cases hlo : lo ≤ i
  · simp [hlo, hn, h32]
  · have hbit : (w.extractLsb' 0 lo).getLsbD i = false := by rw [h, BitVec.getLsbD_zero]
    have : w.getLsbD i = false := by simpa [show i < lo by omega] using hbit
    simp [this]

/-! ### The two formats -/

/-- A word is the format-R word of its fields exactly when its bits 12:0 are 0 (R74). -/
theorem formatR_eq_iff {opc : BitVec 6} {p : BitVec 1} {rd ra rb rc : BitVec 3} {w : CommandWord} :
    formatR opc p rd ra rb rc = w ↔
      w.extractLsb' 26 6 = opc ∧ w.extractLsb' 25 1 = p ∧ w.extractLsb' 22 3 = rd ∧ w.extractLsb' 19 3 = ra ∧
        w.extractLsb' 16 3 = rb ∧ w.extractLsb' 13 3 = rc ∧ w.extractLsb' 0 13 = 0#13 := by
  constructor
  · rintro rfl
    simp (disch := omega) [formatR, BitVec.extractLsb'_or, extractLsb'_place, extractLsb'_place_of_disjoint]
  · rintro ⟨rfl, rfl, rfl, rfl, rfl, rfl, hzero⟩
    simp (disch := omega) only [formatR, place_or_place_adjacent]
    exact place_upper_field w rfl hzero

/-- A word is the format-M word of its fields exactly when its bits 6:0 are 0 (R75). -/
theorem formatM_eq_iff {opc : BitVec 6} {p : BitVec 1} {rg : BitVec 3} {off : BitVec 6} {cnt : BitVec 5}
    {rs : BitVec 3} {i : BitVec 1} {w : CommandWord} :
    formatM opc p rg off cnt rs i = w ↔
      w.extractLsb' 26 6 = opc ∧ w.extractLsb' 25 1 = p ∧ w.extractLsb' 22 3 = rg ∧ w.extractLsb' 16 6 = off ∧
        w.extractLsb' 11 5 = cnt ∧ w.extractLsb' 8 3 = rs ∧ w.extractLsb' 7 1 = i ∧ w.extractLsb' 0 7 = 0#7 := by
  constructor
  · rintro rfl
    simp (disch := omega) [formatM, BitVec.extractLsb'_or, extractLsb'_place, extractLsb'_place_of_disjoint]
  · rintro ⟨rfl, rfl, rfl, rfl, rfl, rfl, rfl, hzero⟩
    simp (disch := omega) only [formatM, place_or_place_adjacent]
    exact place_upper_field w rfl hzero

/-- A mask acts on a format-R word field by field (R74, R81). -/
theorem formatR_and (opc : BitVec 6) (p : BitVec 1) (rd ra rb rc : BitVec 3) (m : BitVec 32) :
    formatR opc p rd ra rb rc &&& m =
      formatR (opc &&& m.extractLsb' 26 6) (p &&& m.extractLsb' 25 1) (rd &&& m.extractLsb' 22 3)
        (ra &&& m.extractLsb' 19 3) (rb &&& m.extractLsb' 16 3) (rc &&& m.extractLsb' 13 3) := by
  simp only [formatR, BitVec.and_or_distrib_right, place_and]

/-- A mask acts on a format-M word field by field (R75, R81). -/
theorem formatM_and (opc : BitVec 6) (p : BitVec 1) (rg : BitVec 3) (off : BitVec 6) (cnt : BitVec 5)
    (rs : BitVec 3) (i : BitVec 1) (m : BitVec 32) :
    formatM opc p rg off cnt rs i &&& m =
      formatM (opc &&& m.extractLsb' 26 6) (p &&& m.extractLsb' 25 1) (rg &&& m.extractLsb' 22 3)
        (off &&& m.extractLsb' 16 6) (cnt &&& m.extractLsb' 11 5) (rs &&& m.extractLsb' 8 3)
        (i &&& m.extractLsb' 7 1) := by
  simp only [formatM, BitVec.and_or_distrib_right, place_and]

/-! ### Operands as fields, and back -/

@[simp] theorem profileOf_profileBit (p : Profile) : profileOf (profileBit p) = p := by cases p <;> rfl

@[simp] theorem profileBit_profileOf (b : BitVec 1) : profileBit (profileOf b) = b := by
  revert b; decide

@[simp] theorem registerOf_registerField (r : Fin 8) : registerOf (registerField r) = r := by
  revert r; decide

@[simp] theorem registerField_registerOf (b : BitVec 3) : registerField (registerOf b) = b := by
  revert b; decide

@[simp] theorem decide_ofBool_eq_one (b : Bool) : decide (BitVec.ofBool b = 1#1) = b := by cases b <;> rfl

@[simp] theorem ofBool_decide_eq_one (x : BitVec 1) : BitVec.ofBool (decide (x = 1#1)) = x := by
  revert x; decide

/-- An offset the assembler accepts is not cut by its field (R75, R88). -/
theorem toNat_ofNat_of_offsetOk {off : Nat} (h : offsetOk off = true) : (BitVec.ofNat 6 off).toNat = off :=
  Nat.mod_eq_of_lt (Nat.lt_succ_of_le (of_decide_eq_true h))

/-- A length the assembler accepts is not cut by its field (R77, R88). -/
theorem toNat_ofNat_of_lenOk {len : Nat} (h : lenOk len = true) : (BitVec.ofNat 5 len).toNat = len :=
  Nat.mod_eq_of_lt (Nat.lt_succ_of_le (of_decide_eq_true h))

/-- A count the assembler accepts is what its field, which holds one less, stands for (R77, R88). -/
theorem toNat_ofNat_of_countOk {n : Nat} (h : countOk n = true) : (BitVec.ofNat 5 (n - 1)).toNat + 1 = n := by
  simp only [countOk, Bool.and_eq_true, decide_eq_true_eq] at h
  rw [BitVec.toNat_ofNat]
  omega

/-- Each operand the decoder reads, put back into a field, is the word's own field. -/
theorem fields_put_back (w : CommandWord) :
    profileBit (fieldP w) = w.extractLsb' 25 1 ∧ registerField (fieldRD w) = w.extractLsb' 22 3 ∧
      registerField (fieldRA w) = w.extractLsb' 19 3 ∧ registerField (fieldRB w) = w.extractLsb' 16 3 ∧
      registerField (fieldRC w) = w.extractLsb' 13 3 ∧ BitVec.ofNat 6 (fieldOFF w) = w.extractLsb' 16 6 ∧
      BitVec.ofNat 5 (fieldCNT w) = w.extractLsb' 11 5 ∧ registerField (fieldRS w) = w.extractLsb' 8 3 ∧
      BitVec.ofBool (fieldI w) = w.extractLsb' 7 1 :=
  have number {n : Nat} (x : BitVec n) : BitVec.ofNat n x.toNat = x := by rw [BitVec.ofNat_toNat, BitVec.setWidth_eq]
  ⟨profileBit_profileOf _, registerField_registerOf _, registerField_registerOf _, registerField_registerOf _,
    registerField_registerOf _, number _, number _, registerField_registerOf _, ofBool_decide_eq_one _⟩

/-- The fields the decoder reads from a format-R word (R74). -/
@[simp] theorem fields_formatR (opc : BitVec 6) (p : BitVec 1) (rd ra rb rc : BitVec 3) :
    fieldP (formatR opc p rd ra rb rc) = profileOf p ∧ fieldRD (formatR opc p rd ra rb rc) = registerOf rd ∧
      fieldRA (formatR opc p rd ra rb rc) = registerOf ra ∧ fieldRB (formatR opc p rd ra rb rc) = registerOf rb ∧
      fieldRC (formatR opc p rd ra rb rc) = registerOf rc := by
  obtain ⟨-, hp, hrd, hra, hrb, hrc, -⟩ := formatR_eq_iff.mp (rfl : formatR opc p rd ra rb rc = _)
  simp only [fieldP, fieldRD, fieldRA, fieldRB, fieldRC, hp, hrd, hra, hrb, hrc, and_self]

/-- The fields the decoder reads from a format-M word (R75). -/
@[simp] theorem fields_formatM (opc : BitVec 6) (p : BitVec 1) (rg : BitVec 3) (off : BitVec 6) (cnt : BitVec 5)
    (rs : BitVec 3) (i : BitVec 1) :
    fieldP (formatM opc p rg off cnt rs i) = profileOf p ∧ fieldRD (formatM opc p rg off cnt rs i) = registerOf rg ∧
      fieldOFF (formatM opc p rg off cnt rs i) = off.toNat ∧ fieldCNT (formatM opc p rg off cnt rs i) = cnt.toNat ∧
      fieldRS (formatM opc p rg off cnt rs i) = registerOf rs ∧
      fieldI (formatM opc p rg off cnt rs i) = decide (i = 1#1) := by
  obtain ⟨-, hp, hrg, hoff, hcnt, hrs, hi, -⟩ := formatM_eq_iff.mp (rfl : formatM opc p rg off cnt rs i = _)
  simp only [fieldP, fieldRD, fieldOFF, fieldCNT, fieldRS, fieldI, hp, hrg, hoff, hcnt, hrs, hi, and_self]

theorem fieldOFF_le (w : CommandWord) : fieldOFF w ≤ 63 := Nat.le_of_lt_succ (w.extractLsb' 16 6).isLt

theorem fieldCNT_le (w : CommandWord) : fieldCNT w ≤ 31 := Nat.le_of_lt_succ (w.extractLsb' 11 5).isLt

/-! ### Fields as the bits of R9 -/

theorem toNat_extractLsb'_eq_bitsOf (w : CommandWord) {hi lo n : Nat} (hn : hi - lo + 1 = n) :
    (w.extractLsb' lo n).toNat = bitsOf w hi lo := by
  rw [BitVec.extractLsb'_toNat, Nat.shiftRight_eq_div_pow, bitsOf, hn]

theorem extractLsb'_eq_one_iff_bitsOf (w : CommandWord) (k : Nat) : w.extractLsb' k 1 = 1#1 ↔ bitsOf w k k = 1 := by
  rw [← toNat_extractLsb'_eq_bitsOf w (n := 1) (by omega), ← BitVec.toNat_inj]
  rfl

theorem registerOf_extractLsb' (w : CommandWord) (lo : Nat) : registerOf (w.extractLsb' lo 3) = regBits w lo := by
  apply Fin.ext
  have hlt := (w.extractLsb' lo 3).isLt
  rw [toNat_extractLsb'_eq_bitsOf w (hi := lo + 2) (by omega)] at hlt
  exact (toNat_extractLsb'_eq_bitsOf w (by omega)).trans (Nat.mod_eq_of_lt hlt).symm

/-- The decoder's fields are the bits that R72, R74, R75 and R78 name. -/
theorem fields_eq_bits (w : CommandWord) :
    fieldP w = profileBits w ∧ fieldRD w = regBits w 22 ∧ fieldRA w = regBits w 19 ∧ fieldRB w = regBits w 16 ∧
      fieldRC w = regBits w 13 ∧ fieldOFF w = bitsOf w 21 16 ∧ fieldCNT w = bitsOf w 15 11 ∧
      fieldRS w = regBits w 8 ∧ fieldI w = decide (bitsOf w 7 7 = 1) := by
  refine ⟨?_, registerOf_extractLsb' w 22, registerOf_extractLsb' w 19, registerOf_extractLsb' w 16,
    registerOf_extractLsb' w 13, toNat_extractLsb'_eq_bitsOf w rfl, toNat_extractLsb'_eq_bitsOf w rfl,
    registerOf_extractLsb' w 8, ?_⟩
  · simp only [fieldP, profileOf, profileBits, extractLsb'_eq_one_iff_bitsOf]
  · simp only [fieldI, extractLsb'_eq_one_iff_bitsOf]

/-! ### The table -/

/-- No two rows of the table have the same OPC (R80). -/
theorem opcodeRows_eq_of_opc_eq {r q : OpcodeRow} (hr : r ∈ opcodeRows) (hq : q ∈ opcodeRows) (h : r.opc = q.opc) :
    r = q :=
  List.inj_on_of_nodup_map (f := OpcodeRow.opc) (by decide) hr hq h

/-- Every row's mask covers OPC, and its match value holds the row's OPC there (R81). -/
theorem opcodeRows_fix_opc : ∀ r ∈ opcodeRows,
    r.mask.extractLsb' 26 6 = BitVec.allOnes 6 ∧ r.pattern.extractLsb' 26 6 = r.opc := by decide

/-- A field that the mask covers has its value in every word that matches (R81). -/
theorem extractLsb'_of_match {w m pat : BitVec 32} (h : w &&& m = pat) {lo n : Nat}
    (hm : m.extractLsb' lo n = BitVec.allOnes n) : w.extractLsb' lo n = pat.extractLsb' lo n := by
  rw [← h, BitVec.extractLsb'_and, hm, BitVec.and_allOnes]

theorem fieldOPC_of_match {r : OpcodeRow} (hr : r ∈ opcodeRows) {w : CommandWord} (h : w &&& r.mask = r.pattern) :
    fieldOPC w = r.opc := by
  obtain ⟨hmask, hopc⟩ := opcodeRows_fix_opc r hr
  exact (extractLsb'_of_match h hmask).trans hopc

theorem rowOf_eq_some_iff {opc : BitVec 6} {r : OpcodeRow} :
    rowOf opc = some r ↔ r ∈ opcodeRows ∧ r.opc = opc := by
  have found {q : OpcodeRow} (h : rowOf opc = some q) : q ∈ opcodeRows ∧ q.opc = opc :=
    ⟨List.mem_of_find?_eq_some h, beq_iff_eq.mp (List.find?_some (p := fun q : OpcodeRow => q.opc == opc) h)⟩
  refine ⟨found, fun ⟨hr, hopc⟩ => ?_⟩
  cases hrow : rowOf opc with
  | none => exact absurd (beq_iff_eq.mpr hopc) (List.find?_eq_none.mp hrow r hr)
  | some q =>
    obtain ⟨hq, hqopc⟩ := found hrow
    rw [opcodeRows_eq_of_opc_eq hq hr (hqopc.trans hopc.symm)]

/-- The OPC values without a row are the reserved ones (R82). -/
theorem rowOf_eq_none_iff {opc : BitVec 6} : rowOf opc = none ↔ reservedOpcode opc.toNat := by
  unfold reservedOpcode
  revert opc; decide

/-! ### What decode answers -/

theorem decode_of_rowOf_none {w : CommandWord} (h : rowOf (fieldOPC w) = none) :
    decode w = .error .reservedOpcode := by
  simp only [decode, h]

/-- A word decodes to a command exactly when it matches a row whose fields build the command (R86). -/
theorem decode_eq_ok_iff {w : CommandWord} {i : Instr} :
    decode w = .ok i ↔ ∃ r ∈ opcodeRows, w &&& r.mask = r.pattern ∧ r.build w = i := by
  constructor
  · intro h
    cases hrow : rowOf (fieldOPC w) with
    | none => rw [decode_of_rowOf_none hrow] at h; exact nomatch h
    | some r =>
      simp only [decode, hrow] at h
      split at h
      next hmatch => exact ⟨r, (rowOf_eq_some_iff.mp hrow).1, hmatch, Except.ok.inj h⟩
      next => exact nomatch h
  · rintro ⟨r, hr, hmatch, rfl⟩
    simp only [decode, rowOf_eq_some_iff.mpr ⟨hr, (fieldOPC_of_match hr hmatch).symm⟩, if_pos hmatch]

/-- Each row builds the command that has the row's OPC (R80). -/
theorem opcodeOf_build (w : CommandWord) : ∀ r ∈ opcodeRows, Laws.opcodeOf (r.build w) = r.opc := by
  simp only [opcodeRows, List.forall_mem_cons, Laws.opcodeOf, List.not_mem_nil, false_imp_iff, implies_true, and_self]

/-- A word matches a row exactly when it decodes to what the row builds (R81). -/
theorem match_iff_decode_build {r : OpcodeRow} (hr : r ∈ opcodeRows) (w : CommandWord) :
    w &&& r.mask = r.pattern ↔ decode w = .ok (r.build w) := by
  refine ⟨fun h => decode_eq_ok_iff.mpr ⟨r, hr, h, rfl⟩, fun h => ?_⟩
  obtain ⟨q, hq, hmatch, hbuild⟩ := decode_eq_ok_iff.mp h
  have hopc : q.opc = r.opc := by rw [← opcodeOf_build w q hq, hbuild, opcodeOf_build w r hr]
  exact opcodeRows_eq_of_opc_eq hq hr hopc ▸ hmatch

/-! ### The round trips -/

theorem exists_rowOf_opcodeOf (i : Instr) : ∃ r, rowOf (Laws.opcodeOf i) = some r := by
  cases i <;> exact ⟨_, rfl⟩

/-- A command's word matches the row of its OPC: what the mask keeps of an operand's field is nothing, and the fields
that are no operand are 0 (R81). -/
theorem encode_matches_row {i : Instr} {r : OpcodeRow} (hr : rowOf (Laws.opcodeOf i) = some r) :
    encode i &&& r.mask = r.pattern := by
  cases i <;> obtain rfl := Option.some.inj hr
  case nop => rfl
  case add | sub | scale | divs | enc | kform | noise =>
    simp only [encode, formatR_and, BitVec.reduceExtractLsb', BitVec.reduceAnd, BitVec.and_zero]
    rfl
  case pack | unpack | prfmsg | ldle | ldbe | stle | stbe =>
    simp only [encode, encodeMove, formatM_and, BitVec.reduceExtractLsb', BitVec.reduceAnd, BitVec.and_zero]
    rfl

/-- The row of a command's OPC reads the command's own operands back from its word, if the fields carry them. -/
theorem build_encode {i : Instr} {r : OpcodeRow} (hr : rowOf (Laws.opcodeOf i) = some r) (hi : i.wellFormed = true) :
    r.build (encode i) = i := by
  cases i <;> obtain rfl := Option.some.inj hr
  case nop => rfl
  case add | sub | scale | divs | enc | kform | noise =>
    simp only [encode, fields_formatR, profileOf_profileBit, registerOf_registerField]
  case pack =>
    obtain ⟨hoff, hlen⟩ := (Bool.and_eq_true _ _).mp hi
    simp [encode, toNat_ofNat_of_offsetOk hoff, toNat_ofNat_of_lenOk hlen, -BitVec.toNat_ofNat]
  case unpack | prfmsg => simp [encode, toNat_ofNat_of_offsetOk hi, -BitVec.toNat_ofNat]
  case ldle | ldbe | stle | stbe =>
    obtain ⟨hoff, hcount⟩ := (Bool.and_eq_true _ _).mp hi
    simp [encode, encodeMove, toNat_ofNat_of_offsetOk hoff, toNat_ofNat_of_countOk hcount, -BitVec.toNat_ofNat]

/-- Settles O1: the word matches the row of the command's OPC, and that row reads the operands back. -/
theorem decodeEncodeRoundTrip : Obligations.DecodeEncodeRoundTrip := by
  intro i hi
  obtain ⟨r, hr⟩ := exists_rowOf_opcodeOf i
  exact decode_eq_ok_iff.mpr ⟨r, (rowOf_eq_some_iff.mp hr).1, encode_matches_row hr, build_encode hr hi⟩

theorem wellFormed_build (w : CommandWord) : ∀ r ∈ opcodeRows, (r.build w).wellFormed = true := by
  have hoff := fieldOFF_le w
  have hcnt := fieldCNT_le w
  simp [opcodeRows, Instr.wellFormed, offsetOk, lenOk, countOk, hoff, hcnt, Nat.lt_succ_of_le hcnt]

/-- A word that matches a row is the word of the command the row builds: every field is an operand, or the mask fixes it
(R81). -/
theorem encode_of_match {i : Instr} {r : OpcodeRow} {w : CommandWord} (hr : rowOf (Laws.opcodeOf i) = some r)
    (hmatch : w &&& r.mask = r.pattern) (hbuild : r.build w = i) : encode i = w := by
  have fixed {lo n : Nat} (hm : r.mask.extractLsb' lo n = BitVec.allOnes n) := extractLsb'_of_match hmatch hm
  cases i <;> obtain rfl := Option.some.inj hr <;> cases hbuild <;>
    simp only [encode, encodeMove, fields_put_back, Nat.add_sub_cancel]
  case nop => exact (BitVec.and_allOnes.symm.trans hmatch).symm
  case add | sub | scale | divs =>
    exact formatR_eq_iff.mpr ⟨fixed rfl, rfl, rfl, rfl, rfl, fixed rfl, fixed rfl⟩
  case enc => exact formatR_eq_iff.mpr ⟨fixed rfl, rfl, rfl, rfl, rfl, rfl, fixed rfl⟩
  case kform | noise => exact formatR_eq_iff.mpr ⟨fixed rfl, rfl, rfl, rfl, fixed rfl, fixed rfl, fixed rfl⟩
  case pack => exact formatM_eq_iff.mpr ⟨fixed rfl, rfl, rfl, rfl, rfl, fixed rfl, fixed rfl, fixed rfl⟩
  case unpack => exact formatM_eq_iff.mpr ⟨fixed rfl, rfl, rfl, rfl, fixed rfl, rfl, fixed rfl, fixed rfl⟩
  case prfmsg => exact formatM_eq_iff.mpr ⟨fixed rfl, fixed rfl, fixed rfl, rfl, fixed rfl, rfl, rfl, fixed rfl⟩
  case ldle | ldbe | stle | stbe =>
    exact formatM_eq_iff.mpr ⟨fixed rfl, fixed rfl, rfl, rfl, rfl, fixed rfl, fixed rfl, fixed rfl⟩

/-- Settles O2: the word matches a row, whose operands fit their fields, and the row's mask leaves no other bit free. -/
theorem encodeDecodeRoundTrip : Obligations.EncodeDecodeRoundTrip := by
  intro w i h
  obtain ⟨r, hr, hmatch, rfl⟩ := decode_eq_ok_iff.mp h
  have hrow := rowOf_eq_some_iff.mpr ⟨hr, (opcodeOf_build w r hr).symm⟩
  exact ⟨wellFormed_build w r hr, encode_of_match hrow hmatch rfl⟩

/-! ### The table selects one command -/

/-- Settles O3: a word that matches a row has the row's OPC, and no two rows share one. -/
theorem decodeUnambiguous : Obligations.DecodeUnambiguous := by
  have distinct : opcodeRows.Pairwise fun r q => r.opc ≠ q.opc := by decide
  refine ⟨by decide, distinct.imp_of_mem fun hr hq hne w ⟨hmr, hmq⟩ => ?_, fun w => ?_⟩
  · exact hne ((fieldOPC_of_match hr hmr).symm.trans (fieldOPC_of_match hq hmq))
  · cases hd : decode w with
    | ok i =>
      obtain ⟨r, hr, hmatch, -⟩ := decode_eq_ok_iff.mp hd
      exact iff_of_false (fun hno => hno r hr hmatch) (by simp)
    | error e =>
      refine iff_of_true (fun r hr hmatch => ?_) (by cases e <;> simp)
      exact nomatch hd.symm.trans ((match_iff_decode_build hr w).mp hmatch)

/-- Settles O4: row by row, what `match_iff_decode_build` says, with the fields read as bits. -/
theorem maskAndMatchSelectTheCommand : Obligations.MaskAndMatchSelectTheCommand := by
  intro w
  have rows : ∀ r ∈ opcodeRows, (w &&& r.mask = r.pattern ↔ decode w = .ok (r.build w)) :=
    fun r hr => match_iff_decode_build hr w
  simpa only [opcodeRows, List.forall_mem_cons, List.not_mem_nil, false_imp_iff, implies_true, and_true,
    fields_eq_bits] using rows

/-- Settles O5: each word is computed by the encoder; the decoder's side is O1. -/
theorem workedEncodings : Obligations.WorkedEncodings := by
  have both {i : Instr} {w : CommandWord} (hi : i.wellFormed = true) (hw : encode i = w) :
      encode i = w ∧ decode w = .ok i := ⟨hw, hw ▸ decodeEncodeRoundTrip i hi⟩
  exact ⟨both rfl rfl, both rfl rfl, both rfl rfl, both rfl rfl, both rfl rfl, both rfl rfl, both rfl rfl,
    both rfl rfl⟩

/-- Settles O7: a reserved OPC has no row, so decode answers E_OPC and the engine retires the word with that error. -/
theorem reservedOpcodeRaisesOpc : Obligations.ReservedOpcodeRaisesOpc := by
  intro s w rest hnext hpend hopc
  have hrow : rowOf (fieldOPC w) = none := rowOf_eq_none_iff.mpr ((toNat_fieldOPC w).symm ▸ hopc)
  have hpend' : ({ s with turns := rest } : State).pend = some w := hpend
  rw [step_of_engineNext hnext, engineStep_of_decode_error hpend' (decode_of_rowOf_none hrow),
    State.retire_recordError]
  rfl

end Sys2Proof.Machine

/-! The big-integer commands: what ADD, SUB and SCALE write (O14, O15, O16) and their limb-level forms (O28, O29, O30);
DIVS against the closed form of R112 (O25, O27) and the divisors it refuses (O26). -/

namespace Sys2Proof.Machine

/-! ### The container and its limbs -/

theorem width_eq_limbs (p : Profile) : p.width = 64 * p.limbs := by cases p <;> rfl

theorem two_pow_width_le (p : Profile) : 2 ^ p.width ≤ 2 ^ 256 :=
  Nat.pow_le_pow_right (by decide) (by cases p <;> decide)

theorem mod_width_lt (p : Profile) (x : Nat) : x % 2 ^ p.width < 2 ^ 256 :=
  (Nat.mod_lt _ (Nat.two_pow_pos _)).trans_le (two_pow_width_le p)

/-- A value that fits a V register reads back as written (R11). -/
theorem State.getV_setV_self {x : Nat} (hx : x < 2 ^ 256) (s : State) (i : VReg) : (s.setV i x).getV i = x := by
  rw [State.getV_setV, if_pos rfl, Nat.mod_eq_of_lt hx]

theorem limb_eq_div_mod (x j : Nat) : limb x j = x / 2 ^ (64 * j) % 2 ^ 64 := by
  rw [limb, Nat.shiftRight_eq_div_pow]

theorem two_pow_limb_succ (n : Nat) : 2 ^ (64 * (n + 1)) = 2 ^ (64 * n) * 2 ^ 64 := by
  rw [Nat.mul_succ, pow_add]

/-- One more limb of a value (R10). -/
theorem mod_two_pow_limb_succ (x n : Nat) :
    x % 2 ^ (64 * (n + 1)) = x % 2 ^ (64 * n) + limb x n * 2 ^ (64 * n) := by
  rw [two_pow_limb_succ, Nat.mod_mul, limb_eq_div_mod, Nat.mul_comm (2 ^ (64 * n))]

theorem add_limb_lt {c d n : Nat} (hc : c < 2 ^ (64 * n)) (hd : d < 2 ^ 64) :
    c + d * 2 ^ (64 * n) < 2 ^ (64 * (n + 1)) := by
  calc c + d * 2 ^ (64 * n) < (d + 1) * 2 ^ (64 * n) := by
        rw [Nat.add_one_mul d, Nat.add_comm c]; exact Nat.add_lt_add_left hc _
    _ ≤ 2 ^ 64 * 2 ^ (64 * n) := Nat.mul_le_mul_right _ hd
    _ = 2 ^ (64 * (n + 1)) := by rw [two_pow_limb_succ, Nat.mul_comm]

/-- The low limbs of a value put together (R10). -/
theorem sum_limbs (x n : Nat) : ∑ j ∈ Finset.range n, limb x j * 2 ^ (64 * j) = x % 2 ^ (64 * n) := by
  induction n with
  | zero => simp [Nat.mod_one]
  | succ n ih => rw [Finset.sum_range_succ, ih, mod_two_pow_limb_succ]

/-! ### What ADD, SUB and SCALE write -/

theorem exec_add (p : Profile) (rd ra rb : VReg) (s : State) :
    exec (.add p rd ra rb) s = .next (s.setV rd ((s.getV ra + s.getV rb) % 2 ^ p.width)).retire := by
  rw [Nat.add_mod]; rfl

/-- The difference of the rule, made nonnegative by one width, is the integer difference modulo the width (R102). -/
theorem mod_add_sub_mod {w : Nat} (hw : 0 < w) (a b : Nat) :
    (a % w + w - b % w) % w = (((a : Int) - b) % w).toNat := by
  have hb : b % w ≤ a % w + w := (Nat.mod_lt b hw).le.trans (Nat.le_add_left _ _)
  have h : (((a % w + w - b % w) % w : Nat) : Int) = ((a : Int) - b) % w := by
    rw [Int.natCast_mod, Nat.cast_sub hb]
    push_cast
    rw [add_sub_right_comm, Int.add_emod_right, ← Int.sub_emod]
  rw [← h, Int.toNat_natCast]

theorem exec_sub (p : Profile) (rd ra rb : VReg) (s : State) :
    exec (.sub p rd ra rb) s =
      .next (s.setV rd (((s.getV ra : Int) - s.getV rb) % 2 ^ p.width).toNat).retire := by
  have h := mod_add_sub_mod (Nat.two_pow_pos p.width) (s.getV ra) (s.getV rb)
  rw [Nat.cast_pow] at h
  exact congrArg (fun x => Host.Outcome.next (s.setV rd x).retire) h

theorem exec_scale (p : Profile) (rd ra : VReg) (rb : SReg) (s : State) :
    exec (.scale p rd ra rb) s = .next (s.setV rd (s.getV ra * s.getS rb % 2 ^ p.width)).retire := by
  rw [← Nat.mod_mul_mod]; rfl

/-- Settles O14: reducing the sources first does not change the sum modulo the width. -/
theorem addResult : Obligations.AddResult := exec_add

/-- Settles O15: the width that R102 adds before it subtracts drops out modulo the width. -/
theorem subResult : Obligations.SubResult := exec_sub

/-- Settles O16: reducing the source first does not change the product modulo the width. -/
theorem scaleResult : Obligations.ScaleResult := exec_scale

/-! ### The limb-level forms -/

/-- After `n` limbs: the limbs of the sum with the carry above them are the sum of the sources' low limbs (R101). -/
theorem addLimbs_spec (a b n : Nat) :
    (addLimbs a b n).1 < 2 ^ (64 * n) ∧
      (addLimbs a b n).1 + (addLimbs a b n).2 * 2 ^ (64 * n) = a % 2 ^ (64 * n) + b % 2 ^ (64 * n) := by
  induction n with
  | zero => simp [addLimbs, Nat.mod_one]
  | succ n ih =>
    obtain ⟨hlt, hsum⟩ := ih
    simp only [addLimbs, Nat.shiftRight_eq_div_pow]
    refine ⟨add_limb_lt hlt (Nat.mod_lt _ (by decide)), ?_⟩
    generalize addLimbs a b n = ck at hlt hsum
    generalize hs : limb a n + limb b n + ck.2 = sum
    have hsplit := Nat.mod_add_div sum (2 ^ 64)
    rw [mod_two_pow_limb_succ, mod_two_pow_limb_succ, two_pow_limb_succ]
    calc ck.1 + sum % 2 ^ 64 * 2 ^ (64 * n) + sum / 2 ^ 64 * (2 ^ (64 * n) * 2 ^ 64)
        = ck.1 + (sum % 2 ^ 64 + 2 ^ 64 * (sum / 2 ^ 64)) * 2 ^ (64 * n) := by ring
      _ = ck.1 + ck.2 * 2 ^ (64 * n) + (limb a n + limb b n) * 2 ^ (64 * n) := by rw [hsplit, ← hs]; ring
      _ = a % 2 ^ (64 * n) + limb a n * 2 ^ (64 * n) + (b % 2 ^ (64 * n) + limb b n * 2 ^ (64 * n)) := by
        rw [hsum]; ring

/-- The limb form with the last carry dropped is the sum modulo the container (R101). -/
theorem addLimbs_fst (a b n : Nat) : (addLimbs a b n).1 = (a + b) % 2 ^ (64 * n) := by
  obtain ⟨hlt, hsum⟩ := addLimbs_spec a b n
  rw [Nat.add_mod, ← hsum, Nat.add_mul_mod_self_right, Nat.mod_eq_of_lt hlt]

/-- Settles O28: both are the sum modulo 2^w. -/
theorem addEqualsLimbForm : Obligations.AddEqualsLimbForm := by
  intro p rd ra rb s t h
  rw [exec_add] at h
  obtain rfl := Host.Outcome.next.inj h
  rw [addLimbs_fst, ← width_eq_limbs]
  exact State.getV_setV_self (mod_width_lt p _) s rd

/-- A limb difference is its residue less the borrow it takes from the next limb (R103). -/
theorem residue_sub_borrow {d : Int} (hlo : -2 ^ 64 ≤ d) (hhi : d < 2 ^ 64) :
    ((d % 2 ^ 64).toNat : Int) - ((if d < 0 then 1 else 0 : Nat) : Int) * 2 ^ 64 = d := by
  split <;> omega

/-- After `n` limbs: the limbs of the difference less the borrow above them are the difference of the sources' low limbs
(R103). -/
theorem subLimbs_spec (a b n : Nat) :
    (subLimbs a b n).1 < 2 ^ (64 * n) ∧ (subLimbs a b n).2 ≤ 1 ∧
      ((subLimbs a b n).1 : Int) - (subLimbs a b n).2 * 2 ^ (64 * n) =
        (a % 2 ^ (64 * n) : Nat) - (b % 2 ^ (64 * n) : Nat) := by
  induction n with
  | zero => simp [subLimbs, Nat.mod_one]
  | succ n ih =>
    obtain ⟨hlt, hborrow, hdiff⟩ := ih
    simp only [subLimbs]
    generalize subLimbs a b n = ck at hlt hborrow hdiff
    have ha := limb_lt a n
    have hb := limb_lt b n
    generalize hd : (limb a n : Int) - limb b n - ck.2 = d
    have hsplit := residue_sub_borrow (d := d) (by omega) (by omega)
    refine ⟨add_limb_lt hlt (by omega), by split <;> omega, ?_⟩
    generalize (d % 2 ^ 64).toNat = residue at hsplit ⊢
    generalize (if d < 0 then 1 else 0 : Nat) = borrow at hsplit ⊢
    rw [mod_two_pow_limb_succ, mod_two_pow_limb_succ]
    push_cast at hdiff ⊢
    rw [Nat.mul_succ, pow_add]
    linear_combination hdiff + 2 ^ (64 * n) * hsplit - 2 ^ (64 * n) * hd

/-- The limb form with the last borrow dropped is the difference modulo the container (R103). -/
theorem subLimbs_fst (a b n : Nat) : (subLimbs a b n).1 = (((a : Int) - b) % 2 ^ (64 * n)).toNat := by
  obtain ⟨hlt, -, hdiff⟩ := subLimbs_spec a b n
  have hlt' : ((subLimbs a b n).1 : Int) < 2 ^ (64 * n) := by exact_mod_cast hlt
  have h : ((a : Int) - b) % 2 ^ (64 * n) = (subLimbs a b n).1 := by
    push_cast at hdiff
    rw [Int.sub_emod, ← hdiff, Int.sub_mul_emod_self_right, Int.emod_eq_of_lt (Int.natCast_nonneg _) hlt']
  rw [h, Int.toNat_natCast]

/-- Settles O29: both are the difference modulo 2^w. -/
theorem subEqualsLimbForm : Obligations.SubEqualsLimbForm := by
  intro p rd ra rb s t h
  rw [exec_sub, width_eq_limbs, ← subLimbs_fst] at h
  obtain rfl := Host.Outcome.next.inj h
  have hlt := (subLimbs_spec (s.getV ra) (s.getV rb) p.limbs).1
  rw [← width_eq_limbs] at hlt
  exact State.getV_setV_self (hlt.trans_le (two_pow_width_le p)) s rd

/-- The column of half products is the sum of the whole products: the high half that R105 drops lies above the
container. -/
theorem scaleLimbs_eq_sum (x k n : Nat) :
    scaleLimbs x k n = (∑ j ∈ Finset.range n, limb x j * k * 2 ^ (64 * j)) % 2 ^ (64 * n) := by
  cases n with
  | zero => simp [scaleLimbs, Nat.mod_one]
  | succ m =>
    have halves : ∀ j, limb x j * k * 2 ^ (64 * j) =
        limb x j * k % 2 ^ 64 * 2 ^ (64 * j) + (limb x j * k) >>> 64 * 2 ^ (64 * (j + 1)) := by
      intro j
      rw [two_pow_limb_succ, Nat.shiftRight_eq_div_pow]
      conv_lhs => rw [← Nat.mod_add_div (limb x j * k) (2 ^ 64)]
      ring
    simp only [scaleLimbs, sumBelow_eq_sum, Nat.add_sub_cancel, halves, Finset.sum_add_distrib]
    rw [Finset.sum_range_succ (fun j => (limb x j * k) >>> 64 * 2 ^ (64 * (j + 1))), ← Nat.add_assoc,
      Nat.add_mul_mod_self_right]

/-- The whole products add up to the product with the scalar (R104, R105). -/
theorem sum_limb_products (x k n : Nat) :
    (∑ j ∈ Finset.range n, limb x j * k * 2 ^ (64 * j)) % 2 ^ (64 * n) = x * k % 2 ^ (64 * n) := by
  have h : ∑ j ∈ Finset.range n, limb x j * k * 2 ^ (64 * j) = x % 2 ^ (64 * n) * k := by
    rw [← sum_limbs, Finset.sum_mul]
    exact Finset.sum_congr rfl fun j _ => by ring
  rw [h, Nat.mod_mul_mod]

/-- Settles O30: both forms are the product modulo 2^w. -/
theorem scaleEqualsLimbForm : Obligations.ScaleEqualsLimbForm := by
  intro p rd ra rb s t h
  rw [exec_scale] at h
  obtain rfl := Host.Outcome.next.inj h
  have hread := State.getV_setV_self (mod_width_lt p (s.getV ra * s.getS rb)) s rd
  rw [scaleLimbs_eq_sum, width_eq_limbs, sum_limb_products, ← width_eq_limbs]
  exact ⟨hread, hread⟩

/-! ### DIVS -/

/-- The check of R107 on a divisor read at the profile's width. -/
theorem divisorOk_iff {p : Profile} {q : Nat} (hq : q < 2 ^ p.width) :
    divisorOk p q = true ↔
      q / 2 ^ 128 % 2 ^ 64 ≠ 0 ∧ q / 2 ^ 128 % 2 ^ 64 ≠ 2 ^ 64 - 1 ∧ (p = .wide → q / 2 ^ 192 = 0) := by
  cases p with
  | narrow => simp [divisorOk, limb_eq_div_mod]
  | wide => simp [divisorOk, limb_eq_div_mod q 2, limb_three_of_lt hq, and_assoc, -Nat.div_eq_zero_iff]

/-- A divisor that passes the check has three limbs, and its top limb is neither 0 nor all ones (R107). -/
theorem divisorOk_bounds {p : Profile} {q : Nat} (hq : q < 2 ^ p.width) (hok : divisorOk p q = true) :
    q < 2 ^ 192 ∧ 1 ≤ limb q 2 ∧ limb q 2 < 2 ^ 64 - 1 := by
  have hl := limb_lt q 2
  obtain ⟨h0, h1, h3⟩ := (divisorOk_iff hq).mp hok
  rw [← limb_eq_div_mod q 2] at h0 h1
  refine ⟨?_, by omega, by omega⟩
  cases p with
  | narrow => exact hq
  | wide => have := h3 rfl; omega

/-- On a divisor that passes the check, the loops give the closed form, or E_DIVRNG where it passes 64 bits (R112). -/
theorem divSmall_of_divisorOk {p : Profile} {x q : Nat} (hx : x < 2 ^ p.width) (hq : q < 2 ^ p.width)
    (hok : divisorOk p q = true) :
    divSmall p x q = if divClosed x q < 2 ^ 64 then .ok (divClosed x q) else .error .divRng := by
  obtain ⟨hq', hk, hk'⟩ := divisorOk_bounds hq hok
  rw [divSmall, if_pos hok]
  cases p with
  | narrow => simpa only [divLoops, Nat.zero_add] using mainLoop_spec hq' hk x x 0 le_rfl hx (by decide)
  | wide =>
    obtain ⟨x', o, hpre, hx', ho, hc⟩ | ⟨hpre, hc⟩ :=
      widePrelim_spec hq' hk hk' x x 0 le_rfl hx (by decide)
    · rw [Nat.zero_add] at hc
      simp only [divLoops, hpre]
      rw [mainLoop_spec hq' hk x' x' o le_rfl hx' ho, hc]
    · rw [Nat.zero_add] at hc
      simp only [divLoops, hpre]
      rw [if_neg (Nat.not_lt.mpr hc)]

theorem State.srcV_lt (s : State) (p : Profile) (i : VReg) : s.srcV p i < 2 ^ p.width :=
  Nat.mod_lt _ (Nat.two_pow_pos _)

theorem exec_divs (p : Profile) (rd : SReg) (ra rb : VReg) (s : State) : exec (.divs p rd ra rb) s =
    .next (s.complete ((divSmall p (s.srcV p ra) (s.srcV p rb)).map (s.setS rd))) := rfl

theorem exec_divs_of_divSmall_ok {p : Profile} {rd : SReg} {ra rb : VReg} {s : State} {o : Nat}
    (h : divSmall p (s.srcV p ra) (s.srcV p rb) = .ok o) :
    exec (.divs p rd ra rb) s = .next (s.setS rd o).retire := by
  rw [exec_divs, h]; rfl

theorem exec_divs_of_divSmall_error {p : Profile} {rd : SReg} {ra rb : VReg} {s : State} {e : ErrCode}
    (h : divSmall p (s.srcV p ra) (s.srcV p rb) = .error e) :
    exec (.divs p rd ra rb) s = .next (s.afterError e.code) := by
  rw [exec_divs, h]; rfl

/-- Settles O25: the loops' result is the closed form, by `divSmall_of_divisorOk`. -/
theorem divsClosedForm : Obligations.DivsClosedForm := by
  intro p rd ra rb s x q o hx hq h0 h1 h3 ho
  have hq' : q < 2 ^ p.width := hq ▸ s.srcV_lt p rb
  have hx' : x < 2 ^ p.width := hx ▸ s.srcV_lt p ra
  have hspec := divSmall_of_divisorOk hx' hq' ((divisorOk_iff hq').mpr ⟨h0, h1, h3⟩)
  have hc : divClosed x q = o := by rw [ho, divClosed, limb_eq_div_mod]
  rw [hc, hx, hq] at hspec
  constructor
  · intro hlt
    rw [if_pos hlt] at hspec
    exact exec_divs_of_divSmall_ok hspec
  · intro hge
    rw [if_neg (Nat.not_lt.mpr hge)] at hspec
    exact exec_divs_of_divSmall_error hspec

/-- From a state without an error, the code after DIVS is 0 or that of the error DIVS raised. -/
theorem divs_ecode_cases {p : Profile} {rd : SReg} {ra rb : VReg} {s t : State} (hs : s.err = false)
    (hcode : s.ecode = 0#8) (h : exec (.divs p rd ra rb) s = .next t) :
    t.ecode = 0#8 ∨ ∃ e, divSmall p (s.srcV p ra) (s.srcV p rb) = .error e ∧ t.ecode = e.code := by
  cases hd : divSmall p (s.srcV p ra) (s.srcV p rb) with
  | ok o =>
    obtain rfl := Host.Outcome.next.inj ((exec_divs_of_divSmall_ok hd).symm.trans h)
    exact .inl hcode
  | error e =>
    obtain rfl := Host.Outcome.next.inj ((exec_divs_of_divSmall_error hd).symm.trans h)
    exact .inr ⟨e, rfl, State.afterError_ecode hs _⟩

/-- Settles O26: the check refuses exactly these divisors, and behind it the loops raise nothing but E_DIVRNG. -/
theorem divsRefusesDivisor : Obligations.DivsRefusesDivisor := by
  intro p rd ra rb s q hq
  have hq' : q < 2 ^ p.width := hq ▸ s.srcV_lt p rb
  have refused : divisorOk p q ≠ true ↔
      q / 2 ^ 128 % 2 ^ 64 = 0 ∨ q / 2 ^ 128 % 2 ^ 64 = 2 ^ 64 - 1 ∨ (p = .wide ∧ q / 2 ^ 192 ≠ 0) := by
    rw [ne_eq, divisorOk_iff hq']; tauto
  rw [← refused, hq]
  constructor
  · intro hbad
    exact exec_divs_of_divSmall_error (e := .divPre) (if_neg hbad)
  · intro t hs hcode h ht hok
    obtain h0 | ⟨e, he, hte⟩ := divs_ecode_cases hs hcode h
    · rw [h0] at ht; exact absurd ht (by decide)
    · obtain rfl := divLoops_error ((if_pos hok).symm.trans he)
      rw [hte] at ht; exact absurd ht (by decide)

/-- The closed form counts no more than the dividend holds of 2^128, since each unit it counts stands for at least
that much: a whole divisor, or in the correction the divisor's top limb. -/
theorem divClosed_mul_le {q : Nat} (hq : q < 2 ^ 192) (hk : 1 ≤ limb q 2) (x : Nat) :
    divClosed x q * 2 ^ 128 ≤ x := by
  have hlo := (divisor_bounds hq).1
  have hquot : x / q * 2 ^ 128 ≤ q * (x / q) := by
    rw [Nat.mul_comm]; exact Nat.mul_le_mul_right _ (by omega)
  unfold divClosed
  split
  next hge =>
    have hrest : 2 ^ 128 ≤ x % q := (Nat.le_mul_of_pos_left _ hk).trans hge
    rw [Nat.add_one_mul]
    exact (Nat.add_le_add hquot hrest).trans_eq (Nat.div_add_mod x q)
  next => exact hquot.trans (Nat.mul_div_le x q)

/-- The closed form gives the scheme's `m` back where the noise stays below the divisor's top limb (R112, R114). -/
theorem divClosed_mul_add {q r : Nat} (hq : q < 2 ^ 192) (hr : r < limb q 2 * 2 ^ 128) (m : Nat) :
    divClosed (m * q + r) q = m := by
  have hrq : r < q := hr.trans_le (divisor_bounds hq).1
  have hdiv : (m * q + r) / q = m := by
    rw [Nat.mul_comm, Nat.mul_add_div (by omega), Nat.div_eq_of_lt hrq, Nat.add_zero]
  have hmod : (m * q + r) % q = r := by rw [Nat.mul_add_mod', Nat.mod_eq_of_lt hrq]
  rw [divClosed, hdiv, hmod, if_neg (Nat.not_le.mpr hr), Nat.add_zero]

/-- A divisor between 2^128 and the last top limb passes the check under either profile (R107). -/
theorem divisorOk_of_bounds {p : Profile} {q : Nat} (hq : q < 2 ^ p.width) (hlo : 2 ^ 128 ≤ q) (hhi : q < 2 ^ 191) :
    divisorOk p q = true :=
  (divisorOk_iff hq).mpr ⟨by omega, by omega, fun _ => by omega⟩

theorem keyInRange_narrow_bounds {k : Nat} (h : keyInRange .narrow k) : 2 ^ 136 ≤ k ∧ k < 2 ^ 141 := by
  obtain ⟨l, hl, hl', hlo, hhi⟩ := h
  exact ⟨(Nat.pow_le_pow_right (by decide) hl).trans hlo,
    hhi.trans_le (Nat.pow_le_pow_right (by decide) (by omega))⟩

/-- What the ranges of R114 give: the divisor passes the check, the product with the noise fits the container, and the
noise is below the divisor's top limb. -/
theorem scheme_bounds {p : Profile} {k m r : Nat} (hk : keyInRange p k) (hm : limbInRange p m)
    (hr : noiseBelow p r) :
    k < 2 ^ p.width ∧ divisorOk p k = true ∧ m * k + r < 2 ^ p.width ∧ r < limb k 2 * 2 ^ 128 ∧ m < 2 ^ 64 := by
  cases p with
  | narrow =>
    obtain ⟨hlo, hhi⟩ := keyInRange_narrow_bounds hk
    have hm' : m < 2 ^ 51 := hm
    have hr' : r < 2 ^ 127 + 2 ^ 135 := hr
    have hw : k < 2 ^ Profile.narrow.width := hhi.trans (by decide)
    have hprod : m * k ≤ (2 ^ 51 - 1) * (2 ^ 141 - 1) := Nat.mul_le_mul (by omega) (by omega)
    refine ⟨hw, divisorOk_of_bounds hw (by omega) (by omega), ?_, ?_, by omega⟩
    · change m * k + r < 2 ^ 192; omega
    · rw [limb_two_of_lt (by omega)]; omega
  | wide =>
    obtain ⟨hlo, hhi⟩ : 2 ^ 168 ≤ k ∧ k < 2 ^ 169 := hk
    have hm' : m < 2 ^ 63 := hm
    have hr' : r < 2 ^ 127 + 2 ^ 167 := hr
    have hw : k < 2 ^ Profile.wide.width := hhi.trans (by decide)
    have hprod : m * k ≤ 2 ^ 63 * 2 ^ 169 := Nat.mul_le_mul (by omega) (by omega)
    refine ⟨hw, divisorOk_of_bounds hw (by omega) (by omega), ?_, ?_, by omega⟩
    · change m * k + r < 2 ^ 256; omega
    · rw [limb_two_of_lt (by omega)]; omega

/-- Under P = 0 no input raises E_DIVRNG (R114). -/
theorem divSmall_narrow_ne_divRng {x q : Nat} (hx : x < 2 ^ 192) (hq : q < 2 ^ 192) :
    divSmall .narrow x q ≠ .error .divRng := by
  by_cases hok : divisorOk .narrow q = true
  · have hle := divClosed_mul_le hq (divisorOk_bounds (p := .narrow) hq hok).2.1 x
    have hlt : divClosed x q < 2 ^ 64 := by omega
    rw [divSmall_of_divisorOk (p := .narrow) hx hq hok, if_pos hlt]
    nofun
  · rw [divSmall, if_neg hok]
    nofun

/-- Settles O27: the scheme's ranges put the closed form at `m`, and a narrow dividend is too small for E_DIVRNG. -/
theorem divsInvertsTheScheme : Obligations.DivsInvertsTheScheme := by
  constructor
  · intro p rd ra rb s k m r hk hm hr hx hq
    obtain ⟨hkw, hok, hfit, hnoise, hm64⟩ := scheme_bounds hk hm hr
    have hdivs := divSmall_of_divisorOk hfit hkw hok
    rw [divClosed_mul_add (divisorOk_bounds hkw hok).1 hnoise, if_pos hm64] at hdivs
    have hsrcA : s.srcV p ra = m * k + r := by rw [State.srcV, State.getV, hx, Nat.mod_eq_of_lt hfit]
    have hsrcB : s.srcV p rb = k := by rw [State.srcV, State.getV, hq, Nat.mod_eq_of_lt hkw]
    rw [← hsrcA, ← hsrcB] at hdivs
    exact exec_divs_of_divSmall_ok hdivs
  · intro rd ra rb s t hs hcode h ht
    obtain h0 | ⟨e, he, hte⟩ := divs_ecode_cases hs hcode h
    · rw [h0] at ht; exact absurd ht (by decide)
    · have hrng : e = .divRng := by
        rw [hte] at ht; revert ht; cases e <;> decide
      exact divSmall_narrow_ne_divRng (s.srcV_lt .narrow ra) (s.srcV_lt .narrow rb) (hrng ▸ he)

end Sys2Proof.Machine

/-! The OPE datapath: what ENC, KFORM, NOISE, PACK, UNPACK and PRFMSG write (O17 to O22, O34) and what the scheme rests
on: the ranges of keys and noise (O31, O32), ENC's order (O33), and the packed limb's bounds, order and inverse (O35,
O36, O37). -/

namespace Sys2Proof.Machine

/-! ### KFORM, NOISE and ENC: what they write -/

/-- Limbs l0 and l1 kept with a new l2 above them (R10). -/
theorem ofLimbs_low (a c : Nat) : ofLimbs (limb a 0) (limb a 1) c 0 = a % 2 ^ 128 + c * 2 ^ 128 := by
  simp only [ofLimbs, limb_eq_div_mod]
  omega

/-- Bit `t` lies above the `t` bits that KFORM keeps of l2, so setting it adds 2^t (R130). -/
theorem shapeKey_eq (p : Profile) (a : Nat) : shapeKey p a =
    a % 2 ^ 128 + (a / 2 ^ 128 % 2 ^ 64 / 2 ^ (64 - (p.kexp - 128)) + 2 ^ (p.kexp - 128)) * 2 ^ 128 := by
  have hkept : a / 2 ^ 128 % 2 ^ 64 / 2 ^ (64 - (p.kexp - 128)) < 2 ^ (p.kexp - 128) := by
    cases p <;> simp only [Profile.kexp, Config.kexpNarrow, Config.kexpWide] <;> omega
  have hset := Nat.two_pow_add_eq_or_of_lt hkept 1
  rw [Nat.mul_one] at hset
  rw [shapeKey, ofLimbs_low, limb_eq_div_mod, Nat.shiftRight_eq_div_pow, Nat.or_comm, ← hset, Nat.add_comm (2 ^ _)]

theorem shapeNoise_eq (p : Profile) (a : Nat) : shapeNoise p a =
    a % 2 ^ 128 + a / 2 ^ 128 % 2 ^ 64 / 2 ^ p.nsh * 2 ^ 128 + 2 ^ 127 := by
  rw [shapeNoise, ofLimbs_low, limb_eq_div_mod, Nat.shiftRight_eq_div_pow, Config.noiseOffset]

theorem exec_kform (p : Profile) (rd ra : VReg) (s : State) :
    exec (.kform p rd ra) s = .next (s.setV rd (shapeKey p (s.getV ra))).retire := rfl

theorem exec_noise (p : Profile) (rd ra : VReg) (s : State) :
    exec (.noise p rd ra) s = .next (s.setV rd (shapeNoise p (s.getV ra))).retire := rfl

theorem exec_enc (p : Profile) (rd ra : VReg) (rb : SReg) (rc : VReg) (s : State) :
    exec (.enc p rd ra rb rc) s =
      .next (s.setV rd ((s.getV ra * s.getS rb + s.getV rc) % 2 ^ p.width)).retire := by
  rw [Nat.add_mod, ← Nat.mod_mul_mod, Nat.mod_add_mod]; rfl

/-- Settles O17: reducing the sources first does not change the result modulo the width. -/
theorem encResult : Obligations.EncResult := exec_enc

/-- Settles O18: KFORM writes `shapeKey`, which is the sum of R130. -/
theorem kformResult : Obligations.KformResult := by
  intro p rd ra s
  rw [exec_kform, shapeKey_eq]; rfl

/-- Settles O19: NOISE writes `shapeNoise`, which is the sum of R132. -/
theorem noiseResult : Obligations.NoiseResult := by
  intro p rd ra s
  rw [exec_noise, shapeNoise_eq]; rfl

/-! ### The ranges of keys and noise -/

/-- The bit KFORM sets is the top bit of its result (R131). -/
theorem shapeKey_bounds (p : Profile) (a : Nat) : 2 ^ p.kexp ≤ shapeKey p a ∧ shapeKey p a < 2 ^ (p.kexp + 1) := by
  rw [shapeKey_eq]
  cases p <;> simp only [Profile.kexp, Config.kexpNarrow, Config.kexpWide] <;> omega

/-- The shift leaves 64 - NSH(P) bits of l2 above the low 128 (R133). -/
theorem shapeNoise_bounds (p : Profile) (a : Nat) :
    2 ^ 127 ≤ shapeNoise p a ∧ shapeNoise p a < 2 ^ 127 + 2 ^ (192 - p.nsh) := by
  rw [shapeNoise_eq]
  cases p <;> simp only [Profile.nsh, Config.nshNarrow, Config.nshWide] <;> omega

theorem kexp_bounds (p : Profile) : 140 ≤ p.kexp ∧ p.kexp ≤ 168 := by cases p <;> decide

/-- A value in KFORM's range lies between the smallest narrow key and the end of the wide keys. -/
theorem key_bounds {p : Profile} {k : Nat} (hlo : 2 ^ p.kexp ≤ k) (hhi : k < 2 ^ (p.kexp + 1)) :
    2 ^ 140 ≤ k ∧ k < 2 ^ 169 :=
  ⟨(Nat.pow_le_pow_right (by decide) (kexp_bounds p).1).trans hlo,
    hhi.trans_le (Nat.pow_le_pow_right (by decide) (Nat.succ_le_succ (kexp_bounds p).2))⟩

/-- KFORM leaves a value of its range in the destination (R131). -/
theorem kform_range {p : Profile} {rd ra : VReg} {s t : State} (h : exec (.kform p rd ra) s = .next t) :
    2 ^ p.kexp ≤ t.vreg[rd].toNat ∧ t.vreg[rd].toNat < 2 ^ (p.kexp + 1) := by
  obtain rfl := Host.Outcome.next.inj ((exec_kform p rd ra s).symm.trans h)
  obtain ⟨hlo, hhi⟩ := shapeKey_bounds p (s.getV ra)
  have hread : (s.setV rd (shapeKey p (s.getV ra))).retire.vreg[rd].toNat = shapeKey p (s.getV ra) :=
    State.getV_setV_self ((key_bounds hlo hhi).2.trans (by decide)) s rd
  rw [hread]
  exact ⟨hlo, hhi⟩

/-- NOISE leaves a value of its range in the destination (R133). -/
theorem noise_range {p : Profile} {rd ra : VReg} {s t : State} (h : exec (.noise p rd ra) s = .next t) :
    2 ^ 127 ≤ t.vreg[rd].toNat ∧ t.vreg[rd].toNat < 2 ^ 127 + 2 ^ (192 - p.nsh) := by
  obtain rfl := Host.Outcome.next.inj ((exec_noise p rd ra s).symm.trans h)
  obtain ⟨hlo, hhi⟩ := shapeNoise_bounds p (s.getV ra)
  have hfit : 2 ^ 127 + 2 ^ (192 - p.nsh) ≤ 2 ^ 256 := by cases p <;> decide
  have hread : (s.setV rd (shapeNoise p (s.getV ra))).retire.vreg[rd].toNat = shapeNoise p (s.getV ra) :=
    State.getV_setV_self (hhi.trans_le hfit) s rd
  rw [hread]
  exact ⟨hlo, hhi⟩

/-- The limbs l2 and l3 of a value in KFORM's range (R131). -/
theorem key_limbs {p : Profile} {k : Nat} (hlo : 2 ^ p.kexp ≤ k) (hhi : k < 2 ^ (p.kexp + 1)) :
    2 ^ (p.kexp - 128) ≤ k / 2 ^ 128 % 2 ^ 64 ∧ k / 2 ^ 128 % 2 ^ 64 < 2 ^ (p.kexp - 128 + 1) ∧
      k / 2 ^ 192 = 0 := by
  cases p <;> simp only [Profile.kexp, Config.kexpNarrow, Config.kexpWide] at hlo hhi ⊢ <;> omega

/-- A value in KFORM's range is a divisor DIVS reads whole and accepts, under either width (R131). -/
theorem key_divisorOk {p : Profile} {k : Nat} (hlo : 2 ^ p.kexp ≤ k) (hhi : k < 2 ^ (p.kexp + 1)) (p' : Profile) :
    divisorOk p' (k % 2 ^ p'.width) = true := by
  obtain ⟨hmin, hmax⟩ := key_bounds hlo hhi
  have hwidth : k < 2 ^ p'.width :=
    hmax.trans_le (Nat.pow_le_pow_right (by decide) (by cases p' <;> decide))
  rw [Nat.mod_eq_of_lt hwidth]
  exact divisorOk_of_bounds hwidth (by omega) (by omega)

/-- DIVS by a divisor that passes the check raises no E_DIVPRE (R107). -/
theorem divs_ecode_ne_divPre {p : Profile} {rd : SReg} {ra rb : VReg} {s t : State} (hs : s.err = false)
    (hcode : s.ecode = 0#8) (hok : divisorOk p (s.srcV p rb) = true) (h : exec (.divs p rd ra rb) s = .next t) :
    t.ecode ≠ 0x05#8 := by
  obtain h0 | ⟨e, he, hte⟩ := divs_ecode_cases hs hcode h
  · rw [h0]; decide
  · obtain rfl := divLoops_error ((if_pos hok).symm.trans he)
    rw [hte]; decide

/-- Settles O31: KFORM's range gives the limbs, and every value of it passes the divisor check under either width. -/
theorem kformRange : Obligations.KformRange := by
  intro p rd ra s t h
  obtain ⟨hlo, hhi⟩ := kform_range h
  obtain ⟨hl2, hl2', hl3⟩ := key_limbs hlo hhi
  refine ⟨hlo, hhi, hl2, hl2', hl3, fun p' rd' ra' rb' s' t' hq hs hcode hdivs => ?_⟩
  have hok : divisorOk p' (s'.srcV p' rb') = true := by
    rw [State.srcV, State.getV, hq]; exact key_divisorOk hlo hhi p'
  exact divs_ecode_ne_divPre hs hcode hok hdivs

/-- A value of 2^127 or more is short of every key by a factor below 2^42, whose cube it exceeds. -/
theorem cube_lt_fourth_pow {k x : Nat} (hk : k < 2 ^ 169) (hx : 2 ^ 127 ≤ x) : k ^ 3 < x ^ 4 :=
  calc k ^ 3 < (2 ^ 42 * x) ^ 3 := Nat.pow_lt_pow_left (by omega) (by decide)
    _ = 2 ^ 126 * x ^ 3 := by ring
    _ ≤ x * x ^ 3 := Nat.mul_le_mul_right _ (by omega)
    _ = x ^ 4 := by ring

/-- Noise stays below every key of its profile by at least 2^127 (R133). -/
theorem noise_add_le_key {p : Profile} {k r : Nat} (hk : 2 ^ p.kexp ≤ k) (hr : noiseBelow p r) : r + 2 ^ 127 ≤ k := by
  cases p <;> simp only [noiseBelow, Profile.kexp, Profile.nsh, Config.kexpNarrow, Config.kexpWide, Config.nshNarrow,
    Config.nshWide] at hk hr <;> omega

/-- Settles O32: both r and K - r are at least 2^127, whose fourth power exceeds every key's cube. -/
theorem noiseWindow : Obligations.NoiseWindow := by
  intro p rd ra s t h
  obtain ⟨hr, hr'⟩ := noise_range h
  refine ⟨hr, hr', fun rd' ra' s' t' hk => ?_⟩
  obtain ⟨hlo, hhi⟩ := kform_range hk
  have hmax := (key_bounds hlo hhi).2
  have hgap := noise_add_le_key hlo hr'
  exact ⟨cube_lt_fourth_pow hmax hr, by omega, cube_lt_fourth_pow hmax (by omega)⟩

/-! ### ENC on the scheme's ranges -/

/-- The block after the last limb of the range ends where CW(P) bytes do (R135). -/
theorem succ_limb_mul_key_le {p : Profile} {k m : Nat} (hk : k < 2 ^ (p.kexp + 1)) (hm : limbInRange p m) :
    (m + 1) * k ≤ 2 ^ (8 * p.cipherBytes) := by
  cases p with
  | narrow => exact (Nat.mul_le_mul hm hk.le).trans_eq (pow_add 2 51 141).symm
  | wide => exact (Nat.mul_le_mul hm hk.le).trans_eq (pow_add 2 63 169).symm

theorem cipher_le_width (p : Profile) : 2 ^ (8 * p.cipherBytes) ≤ 2 ^ p.width :=
  Nat.pow_le_pow_right (by decide) (by cases p <;> decide)

/-- ENC of a value that fits the container writes it uncut (R134). -/
theorem enc_value {p : Profile} {rd ra rc : VReg} {rb : SReg} {s t : State} {k m r : Nat}
    (hk : s.vreg[ra].toNat = k) (hm : s.sreg[rb].toNat = m) (hr : s.vreg[rc].toNat = r)
    (hfit : k * m + r < 2 ^ p.width) (h : exec (.enc p rd ra rb rc) s = .next t) :
    t.vreg[rd].toNat = k * m + r := by
  obtain rfl := Host.Outcome.next.inj ((exec_enc p rd ra rb rc s).symm.trans h)
  rw [State.getV, State.getS, State.getV, hk, hm, hr, Nat.mod_eq_of_lt hfit]
  exact State.getV_setV_self (hfit.trans_le (two_pow_width_le p)) s rd

/-- Noise below the key keeps the result inside the block of its limb, which ends within CW(P) bytes (R135). -/
theorem enc_in_block {p : Profile} {k m r : Nat} (hlo : 2 ^ p.kexp ≤ k) (hhi : k < 2 ^ (p.kexp + 1))
    (hm : limbInRange p m) (hr : 2 ^ 127 ≤ r) (hr' : noiseBelow p r) :
    m * k < k * m + r ∧ k * m + r < (m + 1) * k ∧ k * m + r < 2 ^ (8 * p.cipherBytes) := by
  have hgap := noise_add_le_key hlo hr'
  have hend : m * k + r < (m + 1) * k := by rw [Nat.add_one_mul]; omega
  rw [Nat.mul_comm k m]
  exact ⟨by omega, hend, hend.trans_le (succ_limb_mul_key_le hhi hm)⟩

/-- Settles O33: the result lies in the block from m·K to (m+1)·K, and the blocks of smaller limbs end before it. -/
theorem encFitsAndPreservesOrder : Obligations.EncFitsAndPreservesOrder := by
  intro p rd ra rc rd' ra' rc' rb rb' s t s' t' k m r m' r' hlo hhi hm hr hr' hm' hq hq' ha hb hc ha' hb' hc' h h'
  obtain ⟨hstart, hend, hfit⟩ := enc_in_block hlo hhi hm hr hr'
  obtain ⟨hstart', -, hfit'⟩ := enc_in_block hlo hhi hm' hq hq'
  rw [enc_value ha hb hc (hfit.trans_le (cipher_le_width p)) h,
    enc_value ha' hb' hc' (hfit'.trans_le (cipher_le_width p)) h']
  exact ⟨rfl, hfit, hstart, hend, fun hlt => (hend.trans_le (Nat.mul_le_mul_right k hlt)).trans hstart'⟩

/-! ### Bytes of BUF and of S -/

/-- An S register reads back what was written to it, if it fits (R11). -/
theorem State.getS_setS_self {x : Nat} (hx : x < 2 ^ 64) (s : State) (i : SReg) : (s.setS i x).getS i = x := by
  rw [State.getS_setS, if_pos rfl, Nat.mod_eq_of_lt hx]

theorem Memory.length_bytes (m : Memory) (a n : Nat) : (m.bytes a n).length = n := by
  simp [Memory.bytes]

theorem Memory.getD_bytes (m : Memory) (a : Nat) {i n : Nat} (h : i < n) :
    (m.bytes a n).getD i 0#8 = m.read (a + i) := by
  simp [Memory.bytes, h]

theorem Memory.getD_bytes_of_le (m : Memory) (a : Nat) {i n : Nat} (h : n ≤ i) :
    (m.bytes a n).getD i 0#8 = 0#8 := by
  simp [Memory.bytes, h]

theorem toNat_byteBE (n v i : Nat) : (byteBE n v i).toNat = v / 2 ^ (8 * (n - 1 - i)) % 256 := by
  rw [byteBE, BitVec.toNat_ofNat, Nat.shiftRight_eq_div_pow]

/-- A byte below the first depends on the lower bytes of the value only (R13). -/
theorem byteBE_succ_succ {i n : Nat} (h : i < n) (v : Nat) :
    byteBE (n + 1) v (i + 1) = byteBE n (v % 2 ^ (8 * n)) i := by
  apply BitVec.eq_of_toNat_eq
  rw [toNat_byteBE, toNat_byteBE_mod h, Nat.add_sub_cancel, Nat.add_comm i, Nat.sub_sub]

theorem Memory.read_writeBE {i n : Nat} (h : i < n) (m : Memory) (a v : Nat) :
    (m.writeBE a n v).read (a + i) = byteBE n v i :=
  Memory.read_writeBytes_of_lt h m a _

theorem Memory.read_writeBE_of_not_mem {a n x : Nat} (h : ¬(a ≤ x ∧ x < a + n)) (m : Memory) (v : Nat) :
    (m.writeBE a n v).read x = m.read x :=
  Memory.read_writeBytes_of_not_mem h m _

/-! ### The packed limb -/

theorem packField_eq_sum (b : Nat) (chunk : List Byte) : packField b chunk =
    ∑ i ∈ Finset.range chunk.length, (chunk.getD i 0#8).toNat * 2 ^ (8 * (b - 1 - i)) := sumBelow_eq_sum _ _

theorem packField_nil (b : Nat) : packField b [] = 0 := rfl

/-- The first byte is the most significant one of its field (R137). -/
theorem packField_cons (b : Nat) (x : Byte) (xs : List Byte) :
    packField (b + 1) (x :: xs) = x.toNat * 2 ^ (8 * b) + packField b xs := by
  rw [packField_eq_sum, packField_eq_sum, List.length_cons, Finset.sum_range_succ', Nat.add_comm]
  refine congrArg _ (Finset.sum_congr rfl fun i _ => ?_)
  rw [List.getD_cons_succ, Nat.add_sub_cancel, Nat.add_comm i, Nat.sub_sub]

/-- A chunk of at most `b` bytes fills no more than the field (R137). -/
theorem packField_lt {b : Nat} {chunk : List Byte} (h : chunk.length ≤ b) : packField b chunk < 2 ^ (8 * b) := by
  induction chunk generalizing b with
  | nil => exact Nat.two_pow_pos _
  | cons x xs ih =>
    obtain ⟨b, rfl⟩ := Nat.exists_eq_succ_of_ne_zero (Nat.ne_zero_of_lt h)
    have hrest := ih (Nat.le_of_succ_le_succ h)
    have hx : (x.toNat + 1) * 2 ^ (8 * b) ≤ 2 ^ 8 * 2 ^ (8 * b) := Nat.mul_le_mul_right _ x.isLt
    rw [Nat.succ_eq_add_one, packField_cons, Nat.mul_succ, pow_add]
    rw [Nat.add_one_mul] at hx
    omega

/-- Byte `i` of the field is byte `i` of the chunk, or 0 past its end (R137). -/
theorem byteBE_packField {b : Nat} {chunk : List Byte} (h : chunk.length ≤ b) {i : Nat} (hi : i < b) :
    byteBE b (packField b chunk) i = chunk.getD i 0#8 := by
  induction chunk generalizing b i with
  | nil => rw [packField_nil, byteBE, Nat.zero_shiftRight, List.getD_nil]
  | cons x xs ih =>
    obtain ⟨b, rfl⟩ := Nat.exists_eq_succ_of_ne_zero (Nat.ne_zero_of_lt h)
    have hlen : xs.length ≤ b := Nat.le_of_succ_le_succ h
    have hrest := packField_lt hlen
    rw [Nat.succ_eq_add_one, packField_cons]
    cases i with
    | zero =>
      have hfirst : (x.toNat * 2 ^ (8 * b) + packField b xs) / 2 ^ (8 * b) = x.toNat := by
        rw [Nat.mul_comm, Nat.mul_add_div (Nat.two_pow_pos _), Nat.div_eq_of_lt hrest, Nat.add_zero]
      apply BitVec.eq_of_toNat_eq
      rw [toNat_byteBE, Nat.sub_zero, Nat.add_sub_cancel, hfirst, List.getD_cons_zero, Nat.mod_eq_of_lt x.isLt]
    | succ i =>
      have hi' : i < b := Nat.lt_of_succ_lt_succ hi
      rw [byteBE_succ_succ hi', Nat.mul_add_mod', Nat.mod_eq_of_lt hrest, ih hlen hi', List.getD_cons_succ]

/-- The field with a tag that counts `n` bytes and those of the chunk; `packLimb` begins with the tag from 0. -/
def taggedField (b n : Nat) (chunk : List Byte) : Nat := packField b chunk * 8 + (n + chunk.length)

theorem packLimb_eq_taggedField (p : Profile) (chunk : List Byte) :
    packLimb p chunk = taggedField p.blockBytes 0 chunk + if p = .wide then 15 * 2 ^ 59 else 0 := by
  rw [taggedField, Nat.zero_add]
  cases p <;> rfl

theorem taggedField_cons (b n : Nat) (x : Byte) (xs : List Byte) :
    taggedField (b + 1) n (x :: xs) = x.toNat * (2 ^ (8 * b) * 8) + taggedField b (n + 1) xs := by
  rw [taggedField, taggedField, packField_cons, List.length_cons]
  ring

theorem taggedField_nil (b n : Nat) : taggedField b n [] = n := by
  rw [taggedField, packField_nil, Nat.zero_mul, Nat.zero_add, List.length_nil, Nat.add_zero]

theorem lt_taggedField_cons (b n : Nat) (x : Byte) (xs : List Byte) : n < taggedField b n (x :: xs) := by
  rw [taggedField, List.length_cons]
  omega

/-- A tag below 8 keeps to its three bits under the field (R137). -/
theorem taggedField_lt {b n : Nat} {chunk : List Byte} (hb : chunk.length ≤ b) (hn : n + chunk.length < 8) :
    taggedField b n chunk < 2 ^ (8 * b) * 8 := by
  have := packField_lt hb
  unfold taggedField
  omega

/-- Numbers with a digit above a rest below the base compare by the digit first. -/
theorem mul_add_lt_mul_add_iff {B x y f g : Nat} (hf : f < B) (hg : g < B) :
    x * B + f < y * B + g ↔ x < y ∨ x = y ∧ f < g := by
  have step {u v : Nat} (h : u < v) : u * B + B ≤ v * B :=
    (Nat.add_one_mul u B).symm.trans_le (Nat.mul_le_mul_right B h)
  rcases lt_trichotomy x y with h | rfl | h
  · have := step h; omega
  · omega
  · have := step h; omega

/-- By the first byte where the chunks differ, or by the tag where the shorter one ends before that (R139). -/
theorem taggedField_lt_iff {b n : Nat} {xs ys : List Byte} (hx : xs.length ≤ b) (hy : ys.length ≤ b)
    (hnx : n + xs.length < 8) (hny : n + ys.length < 8) :
    xs < ys ↔ taggedField b n xs < taggedField b n ys := by
  induction xs generalizing b n ys with
  | nil =>
    rw [taggedField_nil]
    cases ys with
    | nil => rw [taggedField_nil]; exact iff_of_false (List.lt_irrefl []) (lt_irrefl n)
    | cons y ys => exact iff_of_true (List.nil_lt_cons y ys) (lt_taggedField_cons b n y ys)
  | cons x xs ih =>
    cases ys with
    | nil =>
      rw [taggedField_nil]
      exact iff_of_false (List.not_lt_nil _) (lt_taggedField_cons b n x xs).not_gt
    | cons y ys =>
      obtain ⟨b, rfl⟩ := Nat.exists_eq_succ_of_ne_zero (Nat.ne_zero_of_lt hx)
      rw [List.length_cons] at hx hnx hy hny
      have hxb : xs.length ≤ b := Nat.le_of_succ_le_succ hx
      have hyb : ys.length ≤ b := Nat.le_of_succ_le_succ hy
      have hxn : n + 1 + xs.length < 8 := by omega
      have hyn : n + 1 + ys.length < 8 := by omega
      rw [Nat.succ_eq_add_one, taggedField_cons, taggedField_cons,
        mul_add_lt_mul_add_iff (taggedField_lt hxb hxn) (taggedField_lt hyb hyn),
        List.cons_lt_cons_iff, ih hxb hyb hxn hyn, BitVec.lt_def, BitVec.toNat_inj]

/-! ### PACK -/

theorem exec_pack (p : Profile) (rg : SReg) (off len : Nat) (s : State) : exec (.pack p rg off len) s =
    .next (s.complete ((packChecked p s.buf off len).map (s.setS rg))) := rfl

/-- A chunk too long for its block is refused before its range is looked at (R138, R185). -/
theorem exec_pack_of_gt {p : Profile} {len : Nat} (h : p.blockBytes < len) (rg : SReg) (off : Nat) (s : State) :
    exec (.pack p rg off len) s = .next (s.afterError 0x03#8) := by
  have hcheck : packChecked p s.buf off len = .error .pack := if_pos h
  rw [exec_pack, hcheck]; rfl

/-- A chunk of legal length inside BUF is packed and written (R137). -/
theorem exec_pack_of_le {p : Profile} {off len : Nat} (hlen : len ≤ p.blockBytes) (hoff : off + len ≤ 64)
    (rg : SReg) (s : State) :
    exec (.pack p rg off len) s = .next (s.setS rg (packLimb p (s.buf.bytes off len))).retire := by
  have hcheck : packChecked p s.buf off len = .ok (packLimb p (s.buf.bytes off len)) :=
    (if_neg (Nat.not_lt.mpr hlen)).trans (if_pos (decide_eq_true hoff))
  rw [exec_pack, hcheck]; rfl

/-- The limb of the bytes at OFF, in the form of R137. -/
theorem packLimb_bytes (p : Profile) (m : Memory) (off len : Nat) : packLimb p (m.bytes off len) =
    (∑ i ∈ Finset.range len, (m.read (off + i)).toNat * 2 ^ (8 * (p.blockBytes - 1 - i))) * 8 + len +
      if p = .wide then 15 * 2 ^ 59 else 0 := by
  have hfield : packField p.blockBytes (m.bytes off len) =
      ∑ i ∈ Finset.range len, (m.read (off + i)).toNat * 2 ^ (8 * (p.blockBytes - 1 - i)) := by
    rw [packField_eq_sum, Memory.length_bytes]
    exact Finset.sum_congr rfl fun i hi => by rw [Memory.getD_bytes m off (Finset.mem_range.mp hi)]
  rw [packLimb_eq_taggedField, taggedField, Memory.length_bytes, Nat.zero_add, hfield]

/-- Settles O34: the length check comes first, so the range does not matter. -/
theorem packTooLongRaisesPack : Obligations.PackTooLongRaisesPack := by
  intro p rg off len s h
  have hB : p.blockBytes = if p = .narrow then 6 else 7 := by cases p <;> rfl
  exact exec_pack_of_gt (hB.trans_lt h) rg off s

/-- Settles O20: inside BUF the packed limb of the bytes read is written, which is the sum of R137. -/
theorem packResult : Obligations.PackResult := by
  intro p rg off len s hlen hoff
  rw [exec_pack_of_le hlen hoff, packLimb_bytes]; rfl

theorem blockBytes_le (p : Profile) : p.blockBytes ≤ 7 := by cases p <;> decide

/-- The tagged field lies below the marker (R140). -/
theorem packLimb_bounds {p : Profile} {chunk : List Byte} (h : chunk.length ≤ p.blockBytes) :
    (p = .narrow → packLimb p chunk < 2 ^ 51) ∧
      (p = .wide → 15 * 2 ^ 59 ≤ packLimb p chunk ∧ packLimb p chunk < 2 ^ 63) := by
  have hfield := taggedField_lt (n := 0) h (by have := blockBytes_le p; omega)
  rw [packLimb_eq_taggedField]
  cases p with
  | narrow =>
    replace hfield : taggedField Profile.narrow.blockBytes 0 chunk < 2 ^ 51 := hfield
    simpa using hfield
  | wide =>
    replace hfield : taggedField Profile.wide.blockBytes 0 chunk < 2 ^ 59 := hfield
    simp only [reduceCtorEq, false_imp_iff, true_imp_iff, if_true, true_and]
    omega

/-- A packed limb fits an S register (R140). -/
theorem packLimb_lt {p : Profile} {chunk : List Byte} (h : chunk.length ≤ p.blockBytes) :
    packLimb p chunk < 2 ^ 64 := by
  obtain ⟨hnarrow, hwide⟩ := packLimb_bounds h
  cases p with
  | narrow => exact (hnarrow rfl).trans (by decide)
  | wide => exact (hwide rfl).2.trans (by decide)

/-- PACK leaves the packed limb in its destination (R137). -/
theorem pack_value {p : Profile} {rg : SReg} {off len : Nat} {s t : State} (hlen : len ≤ p.blockBytes)
    (hoff : off + len ≤ 64) (h : exec (.pack p rg off len) s = .next t) :
    t.sreg[rg].toNat = packLimb p (s.buf.bytes off len) := by
  obtain rfl := Host.Outcome.next.inj ((exec_pack_of_le hlen hoff rg s).symm.trans h)
  exact State.getS_setS_self (packLimb_lt ((Memory.length_bytes _ _ _).trans_le hlen)) s rg

/-- Settles O35: what PACK writes is a packed limb. -/
theorem packBounds : Obligations.PackBounds := by
  intro p rg off len s t hlen hoff h
  rw [pack_value hlen hoff h]
  exact packLimb_bounds ((Memory.length_bytes _ _ _).trans_le hlen)

/-- The marker is the same for both limbs, so the tagged fields decide (R139). -/
theorem packLimb_lt_iff {p : Profile} {xs ys : List Byte} (hx : xs.length ≤ p.blockBytes)
    (hy : ys.length ≤ p.blockBytes) : xs < ys ↔ packLimb p xs < packLimb p ys := by
  have hB := blockBytes_le p
  rw [packLimb_eq_taggedField, packLimb_eq_taggedField, Nat.add_lt_add_iff_right]
  exact taggedField_lt_iff hx hy (by omega) (by omega)

/-- Settles O36: packed limbs compare as their tagged fields, and those as the chunks. -/
theorem packPreservesOrder : Obligations.PackPreservesOrder := by
  intro p rg rg' off len off' len' s t s' t' hlen hoff hlen' hoff' h h'
  rw [pack_value hlen hoff h, pack_value hlen' hoff' h']
  exact packLimb_lt_iff ((Memory.length_bytes _ _ _).trans_le hlen) ((Memory.length_bytes _ _ _).trans_le hlen')

/-! ### UNPACK -/

/-- The check of R142 on the bits of the limb. -/
theorem chkFlag_eq_true_iff (p : Profile) (m : Nat) :
    chkFlag p m = true ↔ m % 8 ≤ p.blockBytes ∧ (p = .wide → m / 2 ^ 59 % 16 = 15) := by
  unfold chkFlag
  rw [Bool.and_eq_true, decide_eq_true_iff]
  refine and_congr Iff.rfl ?_
  cases p with
  | narrow => simp
  | wide => simp [markerField, Config.marker, Nat.shiftRight_eq_div_pow]

theorem chkFlag_eq (p : Profile) (m : Nat) :
    chkFlag p m = decide (m % 8 ≤ p.blockBytes ∧ (p = .wide → m / 2 ^ 59 % 16 = 15)) := by
  rw [Bool.eq_iff_iff, chkFlag_eq_true_iff, decide_eq_true_iff]

/-- The field lies above the three bits of the tag (R141). -/
theorem fieldOf_eq (p : Profile) (m : Nat) : fieldOf p m = m / 8 % 2 ^ (8 * p.blockBytes) := by
  rw [fieldOf, Nat.shiftRight_eq_div_pow]

theorem exec_unpack_of_le {p : Profile} {off : Nat} (h : off + p.blockBytes ≤ 64) (rg rs : SReg) (s : State) :
    exec (.unpack p rg rs off) s = .next (unpackWrites p rg off (s.getS rs) s).retire :=
  congrArg _ (State.complete_withRange_of_le h s _)

/-- The bytes UNPACK writes are those of the limb above its tag (R141). -/
theorem toNat_byteBE_fieldOf {p : Profile} {i : Nat} (h : i < p.blockBytes) (m : Nat) :
    (byteBE p.blockBytes (fieldOf p m) i).toNat = m / 8 / 2 ^ (8 * (p.blockBytes - 1 - i)) % 256 := by
  rw [fieldOf_eq, toNat_byteBE_mod h]

/-- Settles O21: inside BUF the writes are committed, and a write of bytes changes exactly the bytes it names. -/
theorem unpackResult : Obligations.UnpackResult := by
  intro p rg rs off s h
  refine ⟨_, exec_unpack_of_le h rg rs s, ?_, fun i hi => ?_, fun a ha => ?_⟩
  · rw [unpackWrites, chkFlag_eq]; rfl
  · exact (congrArg _ (Memory.read_writeBE hi _ _ _)).trans (toNat_byteBE_fieldOf hi _)
  · exact Memory.read_writeBE_of_not_mem ha _ _

/-- The parts that UNPACK takes out of a packed limb are those PACK put in (R137, R141, R142). -/
theorem parts_packLimb {p : Profile} {chunk : List Byte} (h : chunk.length ≤ p.blockBytes) :
    fieldOf p (packLimb p chunk) = packField p.blockBytes chunk ∧ lengthTag (packLimb p chunk) = chunk.length ∧
      chkFlag p (packLimb p chunk) = true := by
  have hfield := packField_lt h
  rw [fieldOf_eq, chkFlag_eq_true_iff, lengthTag, packLimb_eq_taggedField, taggedField]
  cases p with
  | narrow =>
    simp only [Profile.blockBytes, Config.bytesNarrow, reduceCtorEq, if_false, false_imp_iff,
      and_true] at h hfield ⊢
    omega
  | wide =>
    simp only [Profile.blockBytes, Config.bytesWide, if_true, true_imp_iff] at h hfield ⊢
    omega

/-- Settles O37: UNPACK takes the field, the tag and the marker out of the limb that PACK left, and the field's bytes
are the chunk's. -/
theorem unpackInvertsPack : Obligations.UnpackInvertsPack := by
  intro p rm rl off len off' s t hlen hoff hoff' hpack
  have hchunk : (s.buf.bytes off len).length ≤ p.blockBytes :=
    (Memory.length_bytes _ _ _).trans_le hlen
  obtain ⟨hfield, htag, hchk⟩ := parts_packLimb hchunk
  have hlimb : t.getS rm = packLimb p (s.buf.bytes off len) := pack_value hlen hoff hpack
  rw [Memory.length_bytes] at htag
  refine ⟨_, exec_unpack_of_le hoff' rl rm t, ?_⟩
  rw [hlimb]
  have byte {i : Nat} (hi : i < p.blockBytes) :
      (unpackWrites p rl off' (packLimb p (s.buf.bytes off len)) t).retire.buf.read (off' + i) =
        (s.buf.bytes off len).getD i 0#8 :=
    (Memory.read_writeBE hi _ _ _).trans (hfield ▸ byteBE_packField hchunk hi)
  refine ⟨?_, hchk, fun i hi => ?_, fun i hi hi' => ?_⟩
  · have hB := blockBytes_le p
    exact (State.getS_setS_self (by omega) _ rl).trans htag
  · rw [byte (hi.trans_le hlen), Memory.getD_bytes _ _ hi]
  · rw [byte hi', Memory.getD_bytes_of_le _ _ hi]

/-! ### PRFMSG -/

theorem exec_prfmsg_of_le {off : Nat} (h : off + 16 ≤ 64) (rs : SReg) (inc : Bool) (s : State) :
    exec (.prfmsg rs off inc) s = .next (prfWrites off (s.getS rs) inc s).retire :=
  congrArg _ (State.complete_withRange_of_le h s _)

/-- PRFMSG's writes as one update of BUF and CTR (R144, R145). -/
theorem prfWrites_eq (off m : Nat) (inc : Bool) (s : State) : prfWrites off m inc s = { s with
    buf := (s.buf.writeBE off 8 m).writeBE (off + 8) 8 s.ctr.toNat
    ctr := if inc = true then s.ctr + 1#64 else s.ctr } := by
  cases inc with
  | false => rfl
  | true => simp [prfWrites, State.setCtr, State.setBuf, BitVec.ofNat_add]

/-- Settles O22: the second half leaves the first as it was written, and both leave every other byte. -/
theorem prfmsgResult : Obligations.PrfmsgResult := by
  intro rs off inc s h
  refine ⟨_, exec_prfmsg_of_le (by omega) rs inc s, ?_⟩
  rw [prfWrites_eq]
  refine ⟨rfl, fun i hi => ?_, fun i hi => ?_, fun a ha => ?_⟩ <;> rw [State.retire_buf]
  · rw [Memory.read_writeBE_of_not_mem (by omega), Memory.read_writeBE hi, toNat_byteBE]; rfl
  · rw [Memory.read_writeBE hi, toNat_byteBE]
  · rw [Memory.read_writeBE_of_not_mem (by omega), Memory.read_writeBE_of_not_mem (by omega)]

end Sys2Proof.Machine

/-! The buffer moves: NOP (O13), the three limbs of a 24-byte load (O40), and the block store read back by the block
load (O39). -/

namespace Sys2Proof.Machine

/-! ### Reads of BUF as numbers -/

/-- A longer little-endian read is the shorter one with the rest above it (R13). -/
theorem Memory.readLE_add (m : Memory) (a n k : Nat) :
    m.readLE a (n + k) = m.readLE a n + 2 ^ (8 * n) * m.readLE (a + n) k := by
  rw [readLE_eq_sum, readLE_eq_sum, readLE_eq_sum, Finset.sum_range_add, Finset.mul_sum]
  refine congrArg _ (Finset.sum_congr rfl fun i _ => ?_)
  rw [← Nat.add_assoc, Nat.mul_add, pow_add, Nat.mul_left_comm]

theorem Memory.readLE_one (m : Memory) (a : Nat) : m.readLE a 1 = (m.read a).toNat := by
  simp [readLE_eq_sum]

/-- A read of `n` bytes is below 2^(8·n) (R13). -/
theorem Memory.readLE_lt (m : Memory) (a n : Nat) : m.readLE a n < 2 ^ (8 * n) := by
  induction n with
  | zero => exact Nat.one_pos
  | succ n ih =>
    have hbyte : 2 ^ (8 * n) * ((m.read (a + n)).toNat + 1) ≤ 2 ^ (8 * n) * 2 ^ 8 :=
      Nat.mul_le_mul_left _ (m.read (a + n)).isLt
    rw [readLE_add, readLE_one, Nat.mul_succ 8 n, pow_add]
    rw [Nat.mul_succ] at hbyte
    omega

/-- A limb that lies inside a little-endian read is the read of its own eight bytes (R10, R13). -/
theorem Memory.limb_readLE {n j : Nat} (h : 8 * j + 8 ≤ n) (m : Memory) (a : Nat) :
    limb (m.readLE a n) j = m.readLE (a + 8 * j) 8 := by
  obtain ⟨r, rfl⟩ := Nat.exists_eq_add_of_le h
  have hbelow : m.readLE a (8 * j) < 2 ^ (64 * j) := by
    simpa only [← Nat.mul_assoc] using m.readLE_lt a (8 * j)
  rw [limb_eq_div_mod, Nat.add_assoc, readLE_add, ← Nat.mul_assoc 8 8 j, Nat.add_mul_div_left _ _ (Nat.two_pow_pos _),
    Nat.div_eq_of_lt hbelow, Nat.zero_add, readLE_add, Nat.add_mul_mod_self_left]
  exact Nat.mod_eq_of_lt (m.readLE_lt _ 8)

/-- The bytes of a value put together again (R13). -/
theorem sum_bytes (v n : Nat) : ∑ i ∈ Finset.range n, v / 2 ^ (8 * i) % 256 * 2 ^ (8 * i) = v % 2 ^ (8 * n) := by
  induction n with
  | zero => simp [Nat.mod_one]
  | succ n ih => rw [Finset.sum_range_succ, ih, Nat.mul_succ, pow_add, Nat.mod_mul, Nat.mul_comm (2 ^ (8 * n))]; rfl

/-- A big-endian write reads back as the value cut to its bytes (R13). -/
theorem Memory.readBE_writeBE (m : Memory) (a n v : Nat) : (m.writeBE a n v).readBE a n = v % 2 ^ (8 * n) := by
  rw [readBE_eq_sum]
  refine (Finset.sum_congr rfl fun i hi => ?_).trans ((Finset.sum_range_reflect _ n).trans (sum_bytes v n))
  rw [read_writeBE (Finset.mem_range.mp hi), toNat_byteBE]

/-- A V register after a write to it (R11). -/
theorem State.vreg_setV_self (s : State) (i : VReg) (x : Nat) : (s.setV i x).vreg[i] = BitVec.ofNat 256 x :=
  Vector.getElem_set_self i.isLt

/-! ### NOP -/

theorem exec_nop (s : State) : exec .nop s = .next s.retire := rfl

/-- Settles O13: NOP only retires. -/
theorem nopResult : Obligations.NopResult := exec_nop

/-! ### Loads -/

/-- A limb of a V register that was loaded with a value in its range (R10, R11). -/
theorem extractLsb'_ofNat_of_lt {x : Nat} (hx : x < 2 ^ 256) (j : Nat) :
    (BitVec.ofNat 256 x).extractLsb' (64 * j) 64 = BitVec.ofNat 64 (limb x j) := by
  rw [← ofNat_limb, BitVec.toNat_ofNat, Nat.mod_eq_of_lt hx]

/-- Settles O40: the register holds the value read, whose limbs are the reads of eight bytes each, and nothing is
above its 24 bytes. -/
theorem ldleReadsThreeLimbs : Obligations.LdleReadsThreeLimbs := by
  intro rg off s h
  have hlow : s.buf.readLE off 24 < 2 ^ 192 := s.buf.readLE_lt off 24
  have hfit : s.buf.readLE off 24 < 2 ^ 256 := hlow.trans (by decide)
  refine ⟨_, exec_ldle_of_le h rg s, ?_⟩
  rw [State.retire_vreg, State.vreg_setV_self]
  refine ⟨fun j hj => ?_, ?_⟩
  · rw [extractLsb'_ofNat_of_lt hfit, BitVec.toNat_ofNat, Nat.mod_eq_of_lt (limb_lt _ _),
      Memory.limb_readLE (by omega), Memory.readLE_eq_sum]
  · have htop : limb (s.buf.readLE off 24) 3 = 0 := (limb_three_of_lt hfit).trans (Nat.div_eq_of_lt hlow)
    exact (extractLsb'_ofNat_of_lt hfit 3).trans (congrArg _ htop)

/-! ### A store and the load after it -/

/-- STBE and then LDBE of the same range move every value that fits the range (R167, R169). -/
theorem exec_ldbe_after_stbe {rc : VReg} {off n : Nat} {s t : State} (h : off + n ≤ 64)
    (hfit : s.getV rc < 2 ^ (8 * n)) (hstore : exec (.stbe rc off n) s = .next t) (rd : VReg) :
    exec (.ldbe rd off n) t = .next (t.setV rd (s.getV rc)).retire := by
  obtain rfl := Host.Outcome.next.inj ((exec_stbe_of_le h rc s).symm.trans hstore)
  rw [exec_ldbe_of_le h, State.retire_buf, State.setBuf_buf, Memory.readBE_writeBE, Nat.mod_mod,
    Nat.mod_eq_of_lt hfit]

/-- Settles O39: the widths by evaluation, and a block that fits is read back as it was stored. -/
theorem blockStoreLoadRoundTrip : Obligations.BlockStoreLoadRoundTrip := by
  refine ⟨rfl, rfl, fun p rc rd off s t h hfit hstore => ⟨_, exec_ldbe_after_stbe h hfit hstore rd, ?_⟩⟩
  rw [State.retire_vreg, State.vreg_setV_self, State.getV, BitVec.ofNat_toNat, BitVec.setWidth_eq]

end Sys2Proof.Machine

/-! Exceptions: a sticky ERR keeps its first code (O45), the errors E_FIELD (O8) and E_BUF (O38), and the interrupt
output (O47). -/

namespace Sys2Proof.Machine

/-! ### The first error stays -/

/-- From a state with ERR = 1, `t` still has ERR = 1 and the same code (R181). -/
def KeepsFirstError (s t : State) : Prop := s.err = true → t.err = true ∧ t.ecode = s.ecode

theorem KeepsFirstError.of_same {s t : State} (herr : t.err = s.err) (hecode : t.ecode = s.ecode) :
    KeepsFirstError s t :=
  fun h => ⟨herr.trans h, hecode⟩

/-- A later error does not replace the code of the first (R181). -/
theorem State.recordError_keepsFirstError (s : State) (e : ErrCode) : KeepsFirstError s (s.recordError e) :=
  fun h => ⟨rfl, if_pos h⟩

theorem State.hostRead_keepsFirstError (s : State) (w : WindowReg) : KeepsFirstError s (s.hostRead w) := by
  unfold State.hostRead
  split <;> exact .of_same rfl rfl

theorem State.writeOperand_keepsFirstError (s : State) (w : WindowReg) (v : Limb) :
    KeepsFirstError s (s.writeOperand w v) := by
  cases w <;> exact .of_same rfl rfl

/-- Of all window writes only bit 2 of STATUS and bit 1 of CTRL can clear an error (R27, R190, R211). -/
theorem State.hostWrite_keepsFirstError {w : WindowReg} {v : Limb} (hstatus : w = .status → v.getLsbD 2 = false)
    (hctrl : w = .ctrl → v.getLsbD 1 = false) (s : State) : KeepsFirstError s (s.hostWrite w v) := by
  cases w with
  | ctrl =>
    rw [State.hostWrite, State.writeCtrl_of_no_reset (hctrl rfl)]
    exact .of_same rfl rfl
  | status =>
    have hbit := hstatus rfl
    exact .of_same (s.writeStatus_err_of_not hbit) (s.writeStatus_ecode_of_not hbit)
  | cmd =>
    rw [State.hostWrite, State.writeCmd]
    split
    · exact s.recordError_keepsFirstError _
    · exact .of_same rfl rfl
  | id | cmdcnt | reserved => exact .of_same rfl rfl
  | ctr | sreg | vlimb | bufWord =>
    rw [State.hostWrite_of_operand rfl]
    split
    · exact s.recordError_keepsFirstError _
    · exact s.writeOperand_keepsFirstError _ _

/-- An admissible write that clears no error has neither of the clearing bits at its register (R27, R211). -/
theorem HostReq.clear_bits_of_not_clearsError {r : HostReq} {v : Limb} (hr : r.clearsError = false)
    (hkind : r.kind = .write v) (hadm : r.admissible = true) :
    (windowReg (r.offset.toNat / 8) = .status → v.getLsbD 2 = false) ∧
      (windowReg (r.offset.toNat / 8) = .ctrl → v.getLsbD 1 = false) := by
  simpa [HostReq.clearsError, hkind, hadm] using hr

theorem hostAccess_keepsFirstError {r : HostReq} (hr : r.clearsError = false) (s : State) :
    KeepsFirstError s (hostAccess r s) := by
  unfold hostAccess
  split
  · split
    · exact s.hostRead_keepsFirstError _
    · exact s.recordError_keepsFirstError _
  next v hkind =>
    split
    next hadm =>
      obtain ⟨hstatus, hctrl⟩ := HostReq.clear_bits_of_not_clearsError hr hkind hadm
      exact s.hostWrite_keepsFirstError hstatus hctrl
    next => exact s.recordError_keepsFirstError _

/-- The engine never clears an error, whether its word decodes or not (R181, R186). -/
theorem engineStep_keepsFirstError {s t : State} (ht : engineStep s = .next t) : KeepsFirstError s t := by
  cases hp : s.pend with
  | none =>
    obtain rfl := Host.Outcome.next.inj ((engineStep_of_idle hp).symm.trans ht)
    exact .of_same rfl rfl
  | some w =>
    cases hd : decode w with
    | ok i =>
      obtain ⟨-, -, hkeeps⟩ := commandErrorsArePrecise i s t ((engineStep_of_decode_ok hp hd).symm.trans ht)
      exact hkeeps
    | error e =>
      obtain rfl := Host.Outcome.next.inj ((engineStep_of_decode_error hp hd).symm.trans ht)
      exact s.recordError_keepsFirstError _

/-- Inside the window a platform access clears an error exactly where the host access it becomes does (R50). -/
theorem Turn.clearsError_bus {addr : Nat} {off : BitVec 12} (h : windowOffset Config.windowBase addr = some off)
    (size : AccessSize) (kind : AccessKind) :
    (Turn.bus addr size kind).clearsError = (HostReq.mk off size kind).clearsError := by
  simp only [Turn.clearsError, h]

theorem takeTurn_keepsFirstError {tn : Turn} {s t : State} (htn : tn.clearsError = false)
    (ht : takeTurn tn s = .next t) : KeepsFirstError s t := by
  cases tn with
  | engine => exact engineStep_keepsFirstError ht
  | host r =>
    obtain rfl := Host.Outcome.next.inj ht
    exact hostAccess_keepsFirstError htn s
  | bus addr size kind =>
    cases hoff : windowOffset Config.windowBase addr with
    | none => exact nomatch (busAccess_of_outside hoff size kind s).symm.trans ht
    | some off =>
      obtain rfl := Host.Outcome.next.inj ((busAccess_of_inside hoff size kind s).symm.trans ht)
      exact hostAccess_keepsFirstError ((Turn.clearsError_bus hoff size kind).symm.trans htn) s
  | rst => cases htn

/-- Settles O45: by the agent that has the turn, none of whose steps but the excluded ones clears an error. -/
theorem firstErrorStays : Obligations.FirstErrorStays := by
  intro s t herr hturn ht
  cases hs : s.turns with
  | nil => exact engineStep_keepsFirstError ((step_of_no_turn hs).symm.trans ht) herr
  | cons tn ts =>
    exact takeTurn_keepsFirstError (s := { s with turns := ts }) (hturn tn ts hs) ((step_of_turn hs).symm.trans ht) herr

/-! ### E_FIELD -/

/-- A word with a row's OPC that does not match the row has a wrong reserved field (R83). -/
theorem decode_of_mask_ne {r : OpcodeRow} (hr : r ∈ opcodeRows) {w : CommandWord} (hopc : fieldOPC w = r.opc)
    (hne : w &&& r.mask ≠ r.pattern) : decode w = .error .reservedField := by
  simp only [decode, rowOf_eq_some_iff.mpr ⟨hr, hopc.symm⟩, if_neg hne]

/-- Settles O8: the row of the word's OPC is found, the word fails its match, and the engine retires it with E_FIELD. -/
theorem reservedFieldRaisesField : Obligations.ReservedFieldRaisesField := by
  intro s w rest r hr hnext hpend hopc hne
  have hrow : fieldOPC w = r.opc := BitVec.eq_of_toNat_eq ((toNat_fieldOPC w).trans hopc)
  have hpend' : ({ s with turns := rest } : State).pend = some w := hpend
  rw [step_of_engineNext hnext, engineStep_of_decode_error hpend' (decode_of_mask_ne hr hrow hne),
    State.retire_recordError]
  rfl

/-! ### E_BUF -/

/-- A command whose range ends past byte 63 has none of its writes (R184). -/
theorem State.complete_withRange_of_lt {off n : Nat} (h : 64 < off + n) (s : State) (f : State → State) :
    s.complete ((withRange off n s).map f) = s.afterError 0x04#8 := by
  rw [withRange_of_lt h]; rfl

/-- A chunk of legal length whose range ends past byte 63 is not read (R184, R185). -/
theorem exec_pack_of_past_buf {p : Profile} {off len : Nat} (hlen : len ≤ p.blockBytes) (hoff : 64 < off + len)
    (rg : SReg) (s : State) : exec (.pack p rg off len) s = .next (s.afterError 0x04#8) := by
  have hout : ¬ inBuf off len = true := fun hin => Nat.not_le.mpr hoff (of_decide_eq_true hin)
  have hcheck : packChecked p s.buf off len = .error .buf := (if_neg (Nat.not_lt.mpr hlen)).trans (if_neg hout)
  rw [exec_pack, hcheck]; rfl

/-- Settles O38: PACK by its own two checks, the other six by the range check they share. -/
theorem rangePastBufRaisesBuf : Obligations.RangePastBufRaisesBuf := by
  intro s
  have past {off n : Nat} (h : 64 < off + n) (f : State → State) :
      Host.Outcome.next (s.complete ((withRange off n s).map f)) =
        (.next (s.afterError 0x04#8) : Host.Outcome State Fault Refusal) :=
    congrArg _ (s.complete_withRange_of_lt h f)
  exact ⟨fun p rg off len hlen hoff => exec_pack_of_past_buf hlen hoff rg s,
    fun p rg rs off h => past h _,
    fun rs off inc h => past h _,
    fun rg off n h => ⟨past h _, past h _, past h _, past h _⟩⟩

/-! ### The interrupt output -/

theorem State.irq_eq_true_iff (s : State) : s.irq = true ↔ s.irqEn = true ∧ (s.done = true ∨ s.err = true) := by
  rw [State.irq, Bool.and_eq_true, Bool.or_eq_true]

/-- With DONE set only the enable decides (R191). -/
theorem State.irq_of_done {s : State} (h : s.done = true) : s.irq = s.irqEn := by
  rw [State.irq, h, Bool.true_or, Bool.and_true]

theorem State.irq_of_disabled {s : State} (h : s.irqEn = false) : s.irq = false := by
  rw [State.irq, h, Bool.false_and]

/-- A STATUS write that clears both conditions drops the line (R27, R191). -/
theorem State.irq_writeStatus_of_clear {v : Limb} (h1 : v.getLsbD 1 = true) (h2 : v.getLsbD 2 = true) (s : State) :
    (s.writeStatus v).irq = false := by
  rw [State.irq, State.writeStatus_done, State.writeStatus_err_of_clear h2, h1, Bool.not_true, Bool.and_false,
    Bool.or_false, Bool.and_false]

/-- A CTRL write with bit 0 clear disables the line, be it a reset or not (R25, R191, R211). -/
theorem State.writeCtrl_irqEn_of_clear {v : Limb} (h0 : v.getLsbD 0 = false) (s : State) :
    (s.writeCtrl v).irqEn = false := by
  cases h1 : v.getLsbD 1 with
  | true => rw [State.writeCtrl_of_reset h1]; rfl
  | false => rw [State.writeCtrl_of_no_reset h1]; exact h0

/-- Settles O47: a retired command has DONE set, and each of the two writes takes away one factor of the formula. -/
theorem interruptOutput : Obligations.InterruptOutput := by
  refine ⟨State.irq_eq_true_iff, fun i s t h => ?_, fun s rest v hs h1 h2 => ?_, fun s rest v hs h0 => ?_⟩
  · obtain ⟨u, hu, -, hdone, -, hirqEn, -⟩ := everyCommandRetires i s
    obtain rfl := Host.Outcome.next.inj (hu.symm.trans h)
    exact (State.irq_of_done hdone).trans hirqEn
  · exact ⟨_, step_of_hostW_reg (w := .status) hs rfl rfl,
      State.irq_writeStatus_of_clear h1 h2 { s with turns := rest }⟩
  · exact ⟨_, step_of_hostW_reg (w := .ctrl) hs rfl rfl,
      State.irq_of_disabled (State.writeCtrl_irqEn_of_clear h0 { s with turns := rest })⟩

end Sys2Proof.Machine

/-! Commands on the registers as reset leaves them (O48): the rules of DIVS and UNPACK, at the zeros of R44's table. -/

namespace Sys2Proof.Machine

theorem State.toNat_vreg_reset (i : VReg) : State.reset.vreg[i].toNat = 0 :=
  congrArg BitVec.toNat (resetValues.1.vreg i)

theorem State.toNat_sreg_reset (i : SReg) : State.reset.sreg[i].toNat = 0 :=
  congrArg BitVec.toNat (resetValues.1.sreg i)

/-- A divisor that was never written has q.l2 = 0, so the check of R107 refuses it. -/
theorem exec_divs_reset (p : Profile) (rd : SReg) (ra rb : VReg) :
    exec (.divs p rd ra rb) State.reset = .next (State.reset.afterError 0x05#8) := by
  have hq : 0 = State.reset.vreg[rb].toNat % 2 ^ p.width := by rw [State.toNat_vreg_reset, Nat.zero_mod]
  obtain ⟨hrefused, -⟩ := divsRefusesDivisor p rd ra rb State.reset 0 hq
  exact hrefused (.inl rfl)

/-- A limb that was never written lacks the marker 0b1111, so the check of R142 fails; that is no error. -/
theorem exec_unpack_wide_reset {off : Nat} (h : off + 7 ≤ 64) (rg rs : SReg) :
    ∃ t, exec (.unpack .wide rg rs off) State.reset = .next t ∧ t.chk = false ∧ t.err = false := by
  obtain ⟨t, hexec, ht, -⟩ := unpackResult .wide rg rs off State.reset h
  have hmarker : ¬ State.reset.sreg[rs].toNat / 2 ^ 59 % 16 = 15 := by rw [State.toNat_sreg_reset]; decide
  refine ⟨t, hexec, ?_, ?_⟩
  · rw [ht]; exact decide_eq_false fun ⟨_, hwide⟩ => hmarker (hwide rfl)
  · rw [ht]; rfl

/-- Settles O48: the two named commands by their rules at 0, and every command by the retirement of O10. -/
theorem commandsOnUnwrittenRegisters : Obligations.CommandsOnUnwrittenRegisters := by
  refine ⟨exec_divs_reset, fun rg rs off h => exec_unpack_wide_reset h rg rs, fun i => ?_⟩
  obtain ⟨t, hexec, -⟩ := everyCommandRetires i State.reset
  exact ⟨t, hexec⟩

end Sys2Proof.Machine
